-- ==== Sys2Proof/Word.lean ====
section
/-! DEFINITION. The words the spec moves about: the 8-bit cell, the 32-bit data and command word, the 24-bit
cell address (00_scope.md R8). -/

namespace Sys2Proof

/-- One pixel cell or one message cell (R8): 8 bits, unsigned. -/
abbrev Byte := BitVec 8

/-- The host data word, and the command word (R8). -/
abbrev Word := BitVec 32

/-- The host cell address (R8, R61). -/
abbrev Addr := BitVec 24

end Sys2Proof
end

