-- ==== Sys2Proof/Config.lean ====
section
/-! DEFINITION. What an implementation fixes (the three parameters of 00_scope.md R6, with their legal ranges)
and the values the spec leaves open (93_implementation_defined.md U1), which are constants without a body. -/

namespace Sys2Proof

/-- The legal parameter values of R6: MAXH and MAXW even and between 2 and 1024, CW between 11 and 32. -/
def legalSizes (maxh maxw cw : Nat) : Bool :=
  decide (2 ≤ maxh) && decide (maxh ≤ 1024) && decide (maxh % 2 = 0) &&
  (decide (2 ≤ maxw) && decide (maxw ≤ 1024) && decide (maxw % 2 = 0)) &&
  (decide (11 ≤ cw) && decide (cw ≤ 32))

/-- One configuration of HLIWT (R6, U14). It carries the proof that its sizes are legal, so a block whose sizes the
spec does not admit cannot be written down. -/
structure Config where
  /-- MAXH: the largest image height a command accepts, and the number of rows of PIX. -/
  maxh : Nat
  /-- MAXW: the largest image width a command accepts, and the number of columns of PIX. -/
  maxw : Nat
  /-- CW: the width in bits of one coefficient cell, two's complement. -/
  cw : Nat
  /-- R6's legal values. -/
  legal : legalSizes maxh maxw cw = true
deriving DecidableEq, Repr

/-- The reference configuration of R6. -/
def Config.reference : Config := ⟨512, 512, 16, by decide⟩

/-- U1: what the PIX cell with this key holds after the reset numbered `epoch`, until it is written.
A free value: no body, so nothing can be proved of it (DESIGN CHOICE, safe: log entry 2). -/
opaque Config.freePixel (epoch key : Nat) : Byte

/-- U1: what the MSG cell with this index holds after the reset numbered `epoch`, until it is written (log entry 2). -/
opaque Config.freeMessage (epoch index : Nat) : Byte

/-- U1: what a coefficient cell (of the subband memory numbered `space`, as R60 numbers them) holds after the reset
numbered `epoch`, until it is written; the cell is the low CW bits of this word (log entry 2). -/
opaque Config.freeCoefficient (epoch space key : Nat) : Word

end Sys2Proof
end

