-- ==== Sys2Proof/Syntax.lean ====
section
/-! DEFINITION. The seven commands (30_encoding.md R91): the block's only instructions. -/

namespace Sys2Proof

/-- A command (R91). The command word has no operand field (R90, R93): every operand is implicit and comes from the
state, so no constructor has an argument. -/
inductive Instr where
  /-- R161: rewrite the result group and do nothing else. -/
  | nop
  /-- R141: PIX to LL, LH, HL, HH. -/
  | fwd
  /-- R142: LL, LH, HL, HH to PIX, clipped. -/
  | inv
  /-- R153: message bits into the least-significant bits of LL. -/
  | splice
  /-- R156: least-significant bits of LL into MSG and MSGLEN. -/
  | unsplice
  /-- R162: PIX and MSG to the stego image in PIX. -/
  | embed
  /-- R163: PIX to MSG and MSGLEN. -/
  | extract
deriving DecidableEq, Repr

end Sys2Proof
end

