-- ==== Sys2Proof/WellFormed.lean ====
section
/-! DEFINITION. What a well-formed command is. A command has no operand field (30_encoding.md R90, R93), so every
term of `Instr` is well formed; the checks there are to make fall on the 32-bit command WORD (R90, R92). -/

namespace Sys2Proof

/-- Every command is well formed: there is no field to be out of range (R93). -/
def Instr.wellFormed : Instr → Bool
  | .nop => true
  | .fwd => true
  | .inv => true
  | .splice => true
  | .unsplice => true
  | .embed => true
  | .extract => true

/-- R90: bits 31:4 of a command word must be 0. -/
def zeroFieldOk (w : Word) : Bool := decide (w.toNat / 16 = 0)

/-- R91, R92: the operation code, bits 3:0, must be one of 0x0 to 0x6. -/
def opFieldOk (w : Word) : Bool := decide (w.toNat % 16 ≤ 6)

/-- R92: a word is legal when both of its fields are. -/
def wellFormedWord (w : Word) : Bool := zeroFieldOk w && opFieldOk w

end Sys2Proof
end

