-- ==== Sys2Proof/Decode.lean ====
section
/-! DEFINITION. Decoding a command word (30_encoding.md R90 to R92, R97), total on 32-bit words, and the encoder. A
command is delivered as one 32-bit value, so it has no byte order (20_memory.md R64; log entry 6). -/

namespace Sys2Proof

/-- Why a command word is none of the seven (R92). The block reports both alike, as IllegalCommand (R202); the two names are
the model's (DESIGN CHOICE, safe: log entry 8). -/
inductive DecodeError where
  /-- Some bit of 31:4 is set (R90). -/
  | reservedBits (w : Word)
  /-- Bits 31:4 are 0 and OP is one of 0x7 to 0xF (R92). -/
  | reservedOp (w : Word)
deriving DecidableEq, Repr

/-- Bits 31:4 of a command word (R90). -/
def zeroField (w : Word) : BitVec 28 := w.extractLsb' 4 28

/-- Bits 3:0 of a command word (R90). -/
def opField (w : Word) : BitVec 4 := w.extractLsb' 0 4

/-- The command an operation code selects (R91). -/
def instrOfOp (op : Nat) : Option Instr :=
  match op with
  | 0 => some .nop
  | 1 => some .fwd
  | 2 => some .inv
  | 3 => some .splice
  | 4 => some .unsplice
  | 5 => some .embed
  | 6 => some .extract
  | _ => none

/-- R97: the command a 32-bit word stands for. -/
def decode (w : Word) : Except DecodeError Instr :=
  if zeroField w = 0 then
    match instrOfOp (opField w).toNat with
    | some i => .ok i
    | none => .error (.reservedOp w)
  else .error (.reservedBits w)

/-- The word of a command, from the table of R91. -/
def encode : Instr → Word
  | .nop => 0x00000000
  | .fwd => 0x00000001
  | .inv => 0x00000002
  | .splice => 0x00000003
  | .unsplice => 0x00000004
  | .embed => 0x00000005
  | .extract => 0x00000006

/-- The decoder on a table row: a command is one word of 32 bits (R94), and the bits above `nbits` are 0. -/
def decodeTableWord (nbits w : Nat) : Option Instr :=
  if nbits ≤ 32 then
    match decode (BitVec.ofNat 32 (w % 2 ^ nbits)) with
    | .ok i => some i
    | .error _ => none
  else none

end Sys2Proof
end

