-- ==== Sys2Proof/Machine/State.lean ====
section
/-! DEFINITION. The state of one HLIWT block (10_state.md R20), the names of its registers and cells, the host's
transactions, and the state after reset (R40). -/

namespace Sys2Proof.Machine

/-- One memory of the block: the cells written since the last reset, as (key, contents), keys strictly rising. The key
of row r, column c is 1024 × r + c, the low 20 bits of its cell address (R61); the key of MSG[i] is i. For PIX and MSG
this is a list of `Host.Cell`. -/
abbrev Memory (α : Type) := List (Nat × α)

/-- The four subband memories (R37). -/
inductive Band where
  /-- LOW-LOW. -/
  | ll
  /-- LOW-HIGH. -/
  | lh
  /-- HIGH-LOW. -/
  | hl
  /-- HIGH-HIGH. -/
  | hh
deriving DecidableEq, Repr

/-- The fourteen registers of space REG (R35), in the order of their numbers. -/
inductive RegName where
  | cmd | status | imgh | imgw | msglen | padh | padw | subh | subw | cap | bitlen | clipcnt | errinfo0 | errinfo1
deriving DecidableEq, Repr

/-- The cells a host transaction can name (R60). -/
inductive CellName where
  /-- A register. -/
  | reg (r : RegName)
  /-- PIX[row][col]. -/
  | pix (row col : Nat)
  /-- LL, LH, HL or HH at [row][col]. -/
  | coef (b : Band) (row col : Nat)
  /-- MSG[index]. -/
  | msg (index : Nat)
deriving DecidableEq, Repr

/-- The errors a command can report (60_exceptions.md R201). -/
inductive CmdError where
  /-- Code 1: the command word is none of the seven (R202). -/
  | illegalCommand
  /-- Code 2: IMGH or IMGW is 0 or too large (R204). -/
  | badDim
  /-- Code 3: the bitstream is longer than LL has coefficients (R205). -/
  | capacityExceeded
  /-- Code 4: the message has a zero byte (R206). -/
  | nulInPayload
  /-- Code 5, not aborting: the decoder produced no byte or found no terminator (R207). -/
  | noPayloadFound
deriving DecidableEq, Repr

/-- What happens next at the block's boundary: one host transaction, the reset input, or the moment at which the engine
is given its step (00_scope.md R13, 20_memory.md R73). -/
inductive HostEvent where
  /-- HostRead(A) (R66). -/
  | read (a : Addr)
  /-- HostWrite(A, D) (R67). -/
  | write (a : Addr) (d : Word)
  /-- The reset input is asserted (R230). -/
  | reset
  /-- The engine takes its step here, if a command is pending (R72, R239). -/
  | engine
deriving DecidableEq, Repr

/-- Why the machine stops with a fault: never. The spec gives every command word, every register content and every
host access a next state (93_implementation_defined.md: no behaviour of HLIWT is stuck, and none is undefined), so
this type has no constructor. Safe (DEDUCED: log entry 7). -/
inductive Fault
deriving DecidableEq, Repr

/-- Why an instruction is refused. -/
inductive Refusal where
  /-- The command has no meaning in this model yet. Raised by no arm of `exec`: all seven commands have theirs. Safe. -/
  | notModelled (mnemonic : String)
deriving DecidableEq, Repr

/-- The state. The first block of fields is R20's table; the last four fields are the model's own (log entries 1, 2, 3
and 4). The views PADH to BITLEN, and the bits BUSY and CLIP, are functions of it (R20, R24, R26, R31). -/
structure State where
  /-- IMGH, the image height before padding (R21). -/
  imgh : BitVec 16
  /-- IMGW, the image width before padding (R22). -/
  imgw : BitVec 16
  /-- MSGLEN, the number of valid bytes in MSG (R23). -/
  msglen : BitVec 24
  /-- PEND: empty, or the accepted and not yet completed command word (R26). -/
  pend : Option Word
  /-- ERR, the error code of the last completed command (R29). -/
  err : BitVec 4
  /-- TERM, the last command's decoder stopped at a terminator (R30). -/
  term : Bool
  /-- CLIPCNT, the number of pixels the last command's inverse transform clipped (R32). -/
  clipcnt : Word
  /-- ERRINFO0 (R34). -/
  errinfo0 : Word
  /-- ERRINFO1 (R34). -/
  errinfo1 : Word
  /-- ACCERR, sticky: a host access broke the access rules since reset (R33). -/
  accerr : Bool
  /-- PIX, the pixel memory (R36). -/
  pix : Memory Byte
  /-- LL (R37). A coefficient is held as the integer its CW bits stand for (DESIGN CHOICE, safe: log entry 9). -/
  ll : Memory Int
  /-- LH (R37). -/
  lh : Memory Int
  /-- HL (R37). -/
  hl : Memory Int
  /-- HH (R37). -/
  hh : Memory Int
  /-- MSG, the message memory (R38). -/
  msg : Memory Byte
  /-- The model's own: the configuration, fixed for the machine; no step changes it (R39).
  DESIGN CHOICE, unsafe (log entry 1). -/
  cfg : Config
  /-- The model's own: how many resets there have been, the argument of the free values (U1).
  DESIGN CHOICE, safe (log entry 2). -/
  epoch : Nat
  /-- The model's own: the word the last host read returned (R66). DESIGN CHOICE, unsafe (log entry 3). -/
  dr : Word
  /-- The model's own: what the host and the reset input do next, and when the engine steps (R39).
  DESIGN CHOICE, unsafe (log entry 4). -/
  script : List HostEvent
deriving DecidableEq, Repr

/-- The state right after reset (R40): registers 0, nothing pending, no memory cell written; the reference
configuration (log entry 1), the first reset (log entry 2), nothing read yet (log entry 3), a silent host (log
entry 4). -/
def State.reset : State where
  imgh := 0
  imgw := 0
  msglen := 0
  pend := none
  err := 0
  term := false
  clipcnt := 0
  errinfo0 := 0
  errinfo1 := 0
  accerr := false
  pix := []
  ll := []
  lh := []
  hl := []
  hh := []
  msg := []
  cfg := Config.reference
  epoch := 0
  dr := 0
  script := []

end Sys2Proof.Machine
end

