-- ==== Sys2Proof/Machine/Lifting.lean ====
section
/-! DEFINITION. The lifting arithmetic of 40_lifting_arithmetic.md, rules R111 to R120: pure functions over the
integers, exact and unbounded. -/

namespace Sys2Proof.Machine

/-- A matrix as a function of row and column (00_scope.md R10); its shape is said where it is used. -/
abbrev Mat := Nat → Nat → Int

/-- A subband quadruple (R115). -/
structure Subbands where
  ll : Mat
  lh : Mat
  hl : Mat
  hh : Mat

/-- R111: floor of x / 2, toward negative infinity. -/
def fdiv2 (x : Int) : Int := Int.fdiv x 2

/-- R111: 0 for an even x, 1 for an odd x, of either sign. -/
def mod2 (x : Int) : Int := x - 2 * fdiv2 x

/-- R112: the average and the difference of an even-indexed and an odd-indexed element. -/
def lift (a b : Int) : Int × Int := (fdiv2 (a + b), a - b)

/-- R112: the inverse of `lift`. -/
def unlift (s d : Int) : Int × Int := (s + fdiv2 (d + 1), s - fdiv2 d)

/-- R113: the matrix padded to even shape by a clamped read. -/
def pad (h w : Nat) (P : Mat) : Mat := fun r c => P (min r (h - 1)) (min c (w - 1))

/-- R114: forward stage 1, averages of adjacent columns. -/
def fwdS (P : Mat) : Mat := fun r k => (lift (P r (2 * k)) (P r (2 * k + 1))).1

/-- R114: forward stage 1, differences of adjacent columns. -/
def fwdD (P : Mat) : Mat := fun r k => (lift (P r (2 * k)) (P r (2 * k + 1))).2

/-- R115: forward stage 2, averages of adjacent rows. -/
def fwdLow (M : Mat) : Mat := fun k j => (lift (M (2 * k) j) (M (2 * k + 1) j)).1

/-- R115: forward stage 2, differences of adjacent rows. -/
def fwdHigh (M : Mat) : Mat := fun k j => (lift (M (2 * k) j) (M (2 * k + 1) j)).2

/-- R116: the forward transform of an h × w matrix. -/
def fwd2d (h w : Nat) (P : Mat) : Subbands where
  ll := fwdLow (fwdS (pad h w P))
  lh := fwdHigh (fwdS (pad h w P))
  hl := fwdLow (fwdD (pad h w P))
  hh := fwdHigh (fwdD (pad h w P))

/-- R117: inverse stage 2, row 2k from the first and row 2k + 1 from the second half of `unlift`. -/
def invRows (low high : Mat) : Mat := fun r j =>
  if r % 2 = 0 then (unlift (low (r / 2) j) (high (r / 2) j)).1
  else (unlift (low (r / 2) j) (high (r / 2) j)).2

/-- R118: inverse stage 1, column 2k from the first and column 2k + 1 from the second half of `unlift`. -/
def invCols (S D : Mat) : Mat := fun r c =>
  if c % 2 = 0 then (unlift (S r (c / 2)) (D r (c / 2))).1
  else (unlift (S r (c / 2)) (D r (c / 2))).2

/-- R119: the reconstructed matrix before clipping. -/
def inv2dRaw (X : Subbands) : Mat := invCols (invRows X.ll X.lh) (invRows X.hl X.hh)

/-- R120: into [0, 255]. -/
def clip (v : Int) : Int := if v < 0 then 0 else if 255 < v then 255 else v

/-- R120: a reconstructed value is clipped when it lies outside [0, 255]. -/
def outOfRange (v : Int) : Bool := decide (v < 0 ∨ 255 < v)

/-- R120: how many cells of an h × w matrix are clipped. -/
def countClipped (h w : Nat) (R : Mat) : Nat :=
  ((List.range h).map fun r => (List.range w).countP fun c => outOfRange (R r c)).sum

/-- R120: the clipped reconstruction of hc × wc subbands, and how many of its cells were clipped. -/
def inv2d (hc wc : Nat) (X : Subbands) : Mat × Nat :=
  (fun r c => clip (inv2dRaw X r c), countClipped (2 * hc) (2 * wc) (inv2dRaw X))

end Sys2Proof.Machine
end

