-- ==== Sys2Proof/Machine/Bitstream.lean ====
section
/-! DEFINITION. Least-significant bits and the bitstream: 40_lifting_arithmetic.md, rules R127 and R130 to R132. A bit
is a Bool. -/

namespace Sys2Proof.Machine

/-- R127: bit 0 of a coefficient in two's complement. -/
def lsb (c : Int) : Bool := decide (mod2 c = 1)

/-- R127: the coefficient with bit 0 replaced. -/
def setlsb (c : Int) (b : Bool) : Int := c - mod2 c + (if b then 1 else 0)

/-- R130: the eight bits of a byte, most significant first. -/
def byteBits (v : Byte) : List Bool :=
  (List.range 8).map fun t => decide (v.toNat / 2 ^ (7 - t) % 2 = 1)

/-- R131: the bits of a message, each byte most significant bit first, and eight 0 bits. -/
def bitstream (m : List Byte) : List Bool := m.flatMap byteBits ++ List.replicate 8 false

/-- R132: the value of a group of bits, the first bit most significant. -/
def groupValue (g : List Bool) : Nat := g.foldl (fun v b => 2 * v + (if b then 1 else 0)) 0

/-- R132: decode complete groups of eight bits up to the first group that is all zero, or to the end; the flag says
that an all-zero group was found. -/
def decodeGroups : List Bool → List Byte × Bool
  | b0 :: b1 :: b2 :: b3 :: b4 :: b5 :: b6 :: b7 :: rest =>
    let g := groupValue [b0, b1, b2, b3, b4, b5, b6, b7]
    if g = 0 then ([], true)
    else (BitVec.ofNat 8 g :: (decodeGroups rest).1, (decodeGroups rest).2)
  | _ => ([], false)

end Sys2Proof.Machine
end

