-- ==== Sys2Proof/Machine/Flags.lean ====
section
/-! DEFINITION. Error codes (60_exceptions.md R201), the flags that are functions of the state (10_state.md R26, R31)
and the STATUS word (R28). -/

namespace Sys2Proof.Machine

/-- R201: the code of an error. -/
def errCode : CmdError → BitVec 4
  | .illegalCommand => 1
  | .badDim => 2
  | .capacityExceeded => 3
  | .nulInPayload => 4
  | .noPayloadFound => 5

/-- R29: what a completion writes to ERR, 0 when there is no error. -/
def resultCode : Option CmdError → BitVec 4
  | none => 0
  | some e => errCode e

/-- R157: the condition of a decoder that delivered `q` bytes and stopped at a terminator or not. -/
def payloadError (q : Nat) (t : Bool) : Option CmdError :=
  if q = 0 ∨ t = false then some .noPayloadFound else none

/-- R26: BUSY. -/
def busyFlag (s : State) : Bool := s.pend.isSome

/-- R31: CLIP. -/
def clipFlag (s : State) : Bool := decide (s.clipcnt ≠ 0)

/-- R28: the STATUS word, reserved bits 0. -/
def statusWord (s : State) : Word :=
  0#15 ++ BitVec.ofBool s.accerr ++ 0#6 ++ BitVec.ofBool (clipFlag s) ++ BitVec.ofBool s.term ++ s.err ++ 0#3 ++
    BitVec.ofBool (busyFlag s)

end Sys2Proof.Machine
end

