-- ==== Sys2Proof/Machine/Ops.lean ====
section
/-! DEFINITION. The named operations over the memories and the result group: reading and storing cells, and the two
ways a command completes, `finish` (41_transform_commands.md R143) and `fail` (60_exceptions.md R203). -/

namespace Sys2Proof.Machine

/-- The canonical form of a memory: keys strictly rising, so no cell is listed twice and memories that list the same
cells are the same data (log entry 2). -/
abbrev Memory.wf {α : Type} (m : Memory α) : Prop := m.Pairwise fun x y => x.1 < y.1

/-- The contents of a cell, if it was written since the last reset. -/
def memFind {α : Type} : Memory α → Nat → Option α
  | [], _ => none
  | (k, v) :: m, a => if a = k then some v else memFind m a

/-- Write one cell, keeping the keys in order. -/
def memWrite {α : Type} : Memory α → Nat → α → Memory α
  | [], a, v => [(a, v)]
  | (k, w) :: m, a, v =>
    if a < k then (a, v) :: (k, w) :: m
    else if a = k then (a, v) :: m
    else (k, w) :: memWrite m a v

/-- Write a list of cells, one after the other. -/
def memStore {α : Type} (m : Memory α) (cells : List (Nat × α)) : Memory α :=
  cells.foldl (fun m c => memWrite m c.1 c.2) m

/-- The key of the cell in row r, column c: the row stride is always 1024 (R61). -/
def cellKey (r c : Nat) : Nat := 1024 * r + c

/-- The cells of an h × w matrix, in row-major order (00_scope.md R10). -/
def regionCells {α : Type} (h w : Nat) (f : Nat → Nat → α) : List (Nat × α) :=
  (List.range h).flatMap fun r => (List.range w).map fun c => (cellKey r c, f r c)

/-- The space number of a subband memory (R60). -/
def bandSpace : Band → Nat
  | .ll => 2
  | .lh => 3
  | .hl => 4
  | .hh => 5

/-- The memory of a subband. -/
def bandMem (s : State) : Band → Memory Int
  | .ll => s.ll
  | .lh => s.lh
  | .hl => s.hl
  | .hh => s.hh

/-- Replace the memory of a subband. -/
def setBand (s : State) (b : Band) (m : Memory Int) : State :=
  match b with
  | .ll => { s with ll := m }
  | .lh => { s with lh := m }
  | .hl => { s with hl := m }
  | .hh => { s with hh := m }

/-- R63: the low CW bits of a data word read as two's complement, s_CW(D[CW-1:0]). -/
def signedLow (cw : Nat) (d : Word) : Int := (d.setWidth cw).toInt

/-- PIX[r][c]; a cell not written since the last reset holds a free value (U1). -/
def pixAt (s : State) (r c : Nat) : Byte :=
  (memFind s.pix (cellKey r c)).getD (Config.freePixel s.epoch (cellKey r c))

/-- A coefficient cell; one not written since the last reset holds a free CW-bit value (U1). -/
def coefAt (s : State) (b : Band) (k j : Nat) : Int :=
  (memFind (bandMem s b) (cellKey k j)).getD
    (signedLow s.cfg.cw (Config.freeCoefficient s.epoch (bandSpace b) (cellKey k j)))

/-- MSG[i]; a cell not written since the last reset holds a free value (U1). -/
def msgAt (s : State) (i : Nat) : Byte := (memFind s.msg i).getD (Config.freeMessage s.epoch i)

/-- Store an h × w matrix of pixel values into PIX from row 0, column 0. -/
def storePix (s : State) (h w : Nat) (Q : Mat) : State :=
  { s with pix := memStore s.pix (regionCells h w fun r c => BitVec.ofInt 8 (Q r c)) }

/-- Store hc × wc subbands into LL, LH, HL and HH from row 0, column 0. -/
def storeSubbands (s : State) (hc wc : Nat) (X : Subbands) : State :=
  { s with
    ll := memStore s.ll (regionCells hc wc X.ll)
    lh := memStore s.lh (regionCells hc wc X.lh)
    hl := memStore s.hl (regionCells hc wc X.hl)
    hh := memStore s.hh (regionCells hc wc X.hh) }

/-- Store a message: MSG[0] up to MSG[q-1], and MSGLEN <- q (R156). -/
def storeMessage (s : State) (out : List Byte) : State :=
  { s with
    msg := memStore s.msg (out.zipIdx.map fun p => (p.2, p.1))
    msglen := BitVec.ofNat 24 out.length }

/-- R143: a command that is not aborted writes the result group: `e` is none, or the non-aborting error. -/
def finish (e : Option CmdError) (t : Bool) (n : Nat) (s : State) : State :=
  { s with err := resultCode e, errinfo0 := 0, errinfo1 := 0, term := t, clipcnt := BitVec.ofNat 32 n }

/-- R203: an aborting error writes the result group and nothing else. This is the block's whole way of taking an
exception: nothing is saved, no mode changes, control goes nowhere (R209), and there is no return (R210). -/
def fail (e : CmdError) (i0 i1 : Word) (s : State) : State :=
  { s with err := errCode e, errinfo0 := i0, errinfo1 := i1, term := false, clipcnt := 0 }

/-- R72: the end of the engine step. -/
def completePending (s : State) : State := { s with pend := none }

end Sys2Proof.Machine
end

