-- ==== Sys2Proof/Machine/Operands.lean ====
section
/-! DEFINITION. The implicit operands of the commands (30_encoding.md R93), the derived views (10_state.md R24) and the
checks made before a command runs (41_transform_commands.md R140, 42_splice_commands.md R152, R154). -/

namespace Sys2Proof.Machine

/-- R7: MAXHC, rows of each subband memory. -/
def maxhc (c : Config) : Nat := c.maxh / 2

/-- R7: MAXWC, columns of each subband memory. -/
def maxwc (c : Config) : Nat := c.maxw / 2

/-- R7: MSGN, cells of the message memory. -/
def msgn (c : Config) : Nat := maxhc c * maxwc c / 8

/-- R7: CMIN, the least coefficient value. -/
def cmin (c : Config) : Int := -(2 ^ (c.cw - 1) : Int)

/-- R7: CMAX, the greatest coefficient value. -/
def cmax (c : Config) : Int := (2 ^ (c.cw - 1) : Int) - 1

/-- R24: PADH. -/
def padh (s : State) : Nat := s.imgh.toNat + s.imgh.toNat % 2

/-- R24: PADW. -/
def padw (s : State) : Nat := s.imgw.toNat + s.imgw.toNat % 2

/-- R24: SUBH. -/
def subh (s : State) : Nat := padh s / 2

/-- R24: SUBW. -/
def subw (s : State) : Nat := padw s / 2

/-- R24: CAP. -/
def cap (s : State) : Nat := subh s * subw s

/-- R24: BITLEN. -/
def bitlen (s : State) : Nat := 8 * s.msglen.toNat + 8

/-- R140: DimOK. -/
def dimOk (s : State) : Bool :=
  decide (1 ≤ s.imgh.toNat) && decide (s.imgh.toNat ≤ s.cfg.maxh) &&
  (decide (1 ≤ s.imgw.toNat) && decide (s.imgw.toNat ≤ s.cfg.maxw))

/-- R93: the pixel matrix, read from PIX. -/
def image (s : State) : Mat := fun r c => ((pixAt s r c).toNat : Int)

/-- R93: the subband quadruple, read from LL, LH, HL and HH. -/
def subbands (s : State) : Subbands where
  ll := coefAt s .ll
  lh := coefAt s .lh
  hl := coefAt s .hl
  hh := coefAt s .hh

/-- R93: the message, MSG[0] up to MSG[MSGLEN-1]. -/
def message (s : State) : List Byte := (List.range s.msglen.toNat).map (msgAt s)

/-- R154: the least index of a zero byte in the message. -/
def firstNul (s : State) : Option Nat := (List.range s.msglen.toNat).find? fun i => decide (msgAt s i = 0)

/-- R155, R156: the least-significant bits of an LL matrix with `w` columns, in row-major order. -/
def llBits (n w : Nat) (A : Mat) : List Bool := (List.range n).map fun i => lsb (A (i / w) (i % w))

/-- R162: the LL matrix with the bits spliced into its least-significant bits, row-major; the rest as it was. -/
def spliced (w : Nat) (bits : List Bool) (A : Mat) : Mat := fun k j =>
  match bits[k * w + j]? with
  | some b => setlsb (A k j) b
  | none => A k j

/-- R153: the cells a splice writes, one for each bit of the stream. -/
def spliceCells (w : Nat) (bits : List Bool) (A : Mat) : List (Nat × Int) :=
  bits.zipIdx.map fun p => (cellKey (p.2 / w) (p.2 % w), setlsb (A (p.2 / w) (p.2 % w)) p.1)

/-- R204: the completion with BadDim. -/
def failBadDim (s : State) : State := fail .badDim (s.imgh.setWidth 32) (s.imgw.setWidth 32) s

/-- R140: the completion of a command whose dimensions are not accepted; none when they are. -/
def dimFailure (s : State) : Option State := if dimOk s then none else some (failBadDim s)

/-- R152, R154: the completion of a command whose message does not fit or has a zero byte; none when it may run. The
order is R208's: BadDim, CapacityExceeded, NulInPayload, and MSG is scanned only after the capacity check. -/
def payloadFailure (s : State) : Option State :=
  if dimOk s = false then some (failBadDim s)
  else if cap s < bitlen s then
    some (fail .capacityExceeded (BitVec.ofNat 32 (bitlen s)) (BitVec.ofNat 32 (cap s)) s)
  else
    match firstNul s with
    | some p => some (fail .nulInPayload (BitVec.ofNat 32 p) 0 s)
    | none => none

end Sys2Proof.Machine
end

