-- ==== Sys2Proof/Machine/Splice.lean ====
section
/-! DEFINITION. The bit-splice commands SPLICE and UNSPLICE (42_splice_commands.md). -/

namespace Sys2Proof.Machine

/-- R153: SPLICE. The first BITLEN cells of LL, row-major, get bit 0 replaced. -/
def execSplice (s : State) : Host.Outcome State Fault Refusal :=
  match payloadFailure s with
  | some f => .next f
  | none =>
    .next (finish none false 0
      { s with ll := memStore s.ll (spliceCells (subw s) (bitstream (message s)) (coefAt s .ll)) })

/-- R156 and R163: what a decoder result does to the state: the bytes, MSGLEN, and the result group with R157's
condition. -/
def deliver (s : State) (r : List Byte × Bool) : State :=
  finish (payloadError r.1.length r.2) r.2 0 (storeMessage s r.1)

/-- R156: UNSPLICE. -/
def execUnsplice (s : State) : Host.Outcome State Fault Refusal :=
  match dimFailure s with
  | some f => .next f
  | none => .next (deliver s (decodeGroups (llBits (cap s) (subw s) (coefAt s .ll))))

end Sys2Proof.Machine
end

