-- ==== Sys2Proof/Machine/Transform.lean ====
section
/-! DEFINITION. The transform commands FWD and INV (41_transform_commands.md). -/

namespace Sys2Proof.Machine

/-- R141: the forward transform of the image in PIX. -/
def forwardOfImage (s : State) : Subbands := fwd2d s.imgh.toNat s.imgw.toNat (image s)

/-- R141: FWD. PIX is read through the pad clamp and not written. -/
def execFwd (s : State) : Host.Outcome State Fault Refusal :=
  match dimFailure s with
  | some f => .next f
  | none => .next (finish none false 0 (storeSubbands s (subh s) (subw s) (forwardOfImage s)))

/-- R142: INV. The padded size is written; IMGH and IMGW go on naming the original size. -/
def execInv (s : State) : Host.Outcome State Fault Refusal :=
  match dimFailure s with
  | some f => .next f
  | none =>
    .next (finish none false (inv2d (subh s) (subw s) (subbands s)).2
      (storePix s (padh s) (padw s) (inv2d (subh s) (subw s) (subbands s)).1))

end Sys2Proof.Machine
end

