-- ==== Sys2Proof/Machine/Composite.lean ====
section
/-! DEFINITION. NOP and the composite commands EMBED and EXTRACT (43_composite_commands.md). -/

namespace Sys2Proof.Machine

/-- R161: NOP rewrites the result group and makes no check. -/
def execNop (s : State) : Host.Outcome State Fault Refusal := .next (finish none false 0 s)

/-- R162: the subband quadruple EMBED stores: the forward transform of the image with the message's bits spliced
into LL. -/
def embedSubbands (s : State) : Subbands :=
  { forwardOfImage s with ll := spliced (subw s) (bitstream (message s)) (forwardOfImage s).ll }

/-- R162: EMBED. All checks come before anything is written. -/
def execEmbed (s : State) : Host.Outcome State Fault Refusal :=
  match payloadFailure s with
  | some f => .next f
  | none =>
    .next (finish none false (inv2d (subh s) (subw s) (embedSubbands s)).2
      (storePix (storeSubbands s (subh s) (subw s) (embedSubbands s)) (padh s) (padw s)
        (inv2d (subh s) (subw s) (embedSubbands s)).1))

/-- R163: EXTRACT. All four subbands are stored, then LL's bits are decoded. -/
def execExtract (s : State) : Host.Outcome State Fault Refusal :=
  match dimFailure s with
  | some f => .next f
  | none =>
    .next (deliver (storeSubbands s (subh s) (subw s) (forwardOfImage s))
      (decodeGroups (llBits (cap s) (subw s) (forwardOfImage s).ll)))

end Sys2Proof.Machine
end

