-- ==== Sys2Proof/Machine/HostPort.lean ====
section
/-! DEFINITION. The host port (20_memory.md): cell addresses (R61, R62), the two host transactions (R66 to R70), and
the reset event (70_reset_and_hazards.md R230). -/

namespace Sys2Proof.Machine

/-- R35: the number of a register. -/
def regNumber : RegName → Nat
  | .cmd => 0
  | .status => 1
  | .imgh => 2
  | .imgw => 3
  | .msglen => 4
  | .padh => 5
  | .padw => 6
  | .subh => 7
  | .subw => 8
  | .cap => 9
  | .bitlen => 10
  | .clipcnt => 11
  | .errinfo0 => 12
  | .errinfo1 => 13

/-- R35: the register with a number; 14 and above name none. -/
def regOfNumber : Nat → Option RegName
  | 0 => some .cmd
  | 1 => some .status
  | 2 => some .imgh
  | 3 => some .imgw
  | 4 => some .msglen
  | 5 => some .padh
  | 6 => some .padw
  | 7 => some .subh
  | 8 => some .subw
  | 9 => some .cap
  | 10 => some .bitlen
  | 11 => some .clipcnt
  | 12 => some .errinfo0
  | 13 => some .errinfo1
  | _ => none

/-- R61: the SPACE field, bits 23:20. -/
def addrSpace (a : Addr) : Nat := (a.extractLsb' 20 4).toNat

/-- R61: the ROW field, bits 19:10. -/
def addrRow (a : Addr) : Nat := (a.extractLsb' 10 10).toNat

/-- R61: the COL field, bits 9:0. -/
def addrCol (a : Addr) : Nat := (a.extractLsb' 0 10).toNat

/-- R61: the INDEX field, bits 19:0. -/
def addrIndex (a : Addr) : Nat := (a.extractLsb' 0 20).toNat

/-- R60, R62: the coefficient cell in a row and column, if it exists. -/
def coefCell (c : Config) (b : Band) (row col : Nat) : Option CellName :=
  if row < maxhc c ∧ col < maxwc c then some (.coef b row col) else none

/-- R60 to R62: the cell an address names; none when the address is invalid. Validity depends on the configuration
alone, not on IMGH or IMGW. -/
def cellOfAddr (c : Config) (a : Addr) : Option CellName :=
  match addrSpace a with
  | 0 => (regOfNumber (addrIndex a)).map .reg
  | 1 => if addrRow a < c.maxh ∧ addrCol a < c.maxw then some (.pix (addrRow a) (addrCol a)) else none
  | 2 => coefCell c .ll (addrRow a) (addrCol a)
  | 3 => coefCell c .lh (addrRow a) (addrCol a)
  | 4 => coefCell c .hl (addrRow a) (addrCol a)
  | 5 => coefCell c .hh (addrRow a) (addrCol a)
  | 6 => if addrIndex a < msgn c then some (.msg (addrIndex a)) else none
  | _ => none

/-- R62: the cells there are. -/
def cellExists (c : Config) : CellName → Bool
  | .reg _ => true
  | .pix row col => decide (row < c.maxh ∧ col < c.maxw)
  | .coef _ row col => decide (row < maxhc c ∧ col < maxwc c)
  | .msg i => decide (i < msgn c)

/-- R61: the address of a cell. -/
def addrOf : CellName → Addr
  | .reg r => BitVec.ofNat 24 (regNumber r)
  | .pix row col => BitVec.ofNat 24 (0x100000 + 1024 * row + col)
  | .coef b row col => BitVec.ofNat 24 (0x100000 * bandSpace b + 1024 * row + col)
  | .msg i => BitVec.ofNat 24 (0x600000 + i)

/-- R68: the value a register read returns. -/
def readReg (s : State) : RegName → Word
  | .cmd => 0
  | .status => statusWord s
  | .imgh => s.imgh.setWidth 32
  | .imgw => s.imgw.setWidth 32
  | .msglen => s.msglen.setWidth 32
  | .padh => BitVec.ofNat 32 (padh s)
  | .padw => BitVec.ofNat 32 (padw s)
  | .subh => BitVec.ofNat 32 (subh s)
  | .subw => BitVec.ofNat 32 (subw s)
  | .cap => BitVec.ofNat 32 (cap s)
  | .bitlen => BitVec.ofNat 32 (bitlen s)
  | .clipcnt => s.clipcnt
  | .errinfo0 => s.errinfo0
  | .errinfo1 => s.errinfo1

/-- R63, R66: the word a cell is read as. -/
def readCell (s : State) : CellName → Word
  | .reg r => readReg s r
  | .pix row col => (pixAt s row col).setWidth 32
  | .coef b row col => (BitVec.ofInt s.cfg.cw (coefAt s b row col)).signExtend 32
  | .msg i => (msgAt s i).setWidth 32

/-- R69, R70: the effect of a register write. A write to a read-only register is ignored and is no fault. -/
def writeReg (s : State) (d : Word) : RegName → State
  | .cmd => { s with pend := some d }
  | .imgh => { s with imgh := d.setWidth 16 }
  | .imgw => { s with imgw := d.setWidth 16 }
  | .msglen => { s with msglen := d.setWidth 24 }
  | .status => s
  | .padh => s
  | .padw => s
  | .subh => s
  | .subw => s
  | .cap => s
  | .bitlen => s
  | .clipcnt => s
  | .errinfo0 => s
  | .errinfo1 => s

/-- R63, R67: the effect of a write to a cell. -/
def writeCell (s : State) (d : Word) : CellName → State
  | .reg r => writeReg s d r
  | .pix row col => { s with pix := memWrite s.pix (cellKey row col) (d.setWidth 8) }
  | .coef b row col => setBand s b (memWrite (bandMem s b) (cellKey row col) (signedLow s.cfg.cw d))
  | .msg i => { s with msg := memWrite s.msg i (d.setWidth 8) }

/-- R212: an access fault. It is no command error and stops nothing: the sticky flag is set. -/
def accessFault (s : State) : State := { s with accerr := true }

/-- R66: HostRead(A), the state after it and the word it returns. -/
def hostRead (s : State) (a : Addr) : State × Word :=
  if busyFlag s then
    if a = addrOf (.reg .status) then (s, statusWord s) else (accessFault s, 0)
  else
    match cellOfAddr s.cfg a with
    | none => (accessFault s, 0)
    | some c => (s, readCell s c)

/-- R67: HostWrite(A, D). -/
def hostWrite (s : State) (a : Addr) (d : Word) : State :=
  if busyFlag s then accessFault s
  else
    match cellOfAddr s.cfg a with
    | none => accessFault s
    | some c => writeCell s d c

/-- R230, R232, R40: the reset input. The block goes to the reset state; every memory cell takes the free value of the
new epoch (U1), whatever was written before. What is not the block's state stays (R39). The whole time reset is asserted is this
one event (DEDUCED, safe: log entry 10). -/
def resetBlock (s : State) : State :=
  { State.reset with cfg := s.cfg, epoch := s.epoch + 1, dr := s.dr, script := s.script }

end Sys2Proof.Machine
end

