-- ==== Sys2Proof/Machine/Engine.lean ====
section
/-! DEFINITION. The engine step (20_memory.md R72) and what one event of the host, the reset input or the engine does
(R73: all of them in one order, each complete before the next). -/

namespace Sys2Proof.Machine

/-- R72, R97: Exec on a pending word. An illegal word fails before any other check (R202). -/
def execWord (w : Word) (s : State) : Host.Outcome State Fault Refusal :=
  match decode w with
  | .error _ => .next (fail .illegalCommand w 0 s)
  | .ok i => exec i s

/-- R72: the engine step completes the pending command, atomically, and empties PEND. When nothing is pending the
engine has no step and all state is retained (R219). -/
def engineStep (s : State) : Host.Outcome State Fault Refusal :=
  match s.pend with
  | none => .next s
  | some w =>
    match execWord w s with
    | .next t => .next (completePending t)
    | .fault r => .fault r
    | .refused r => .refused r

/-- One event: a host transaction (R66, R67), the reset input (R230), or the engine's step (R72). -/
def eventStep (e : HostEvent) (s : State) : Host.Outcome State Fault Refusal :=
  match e with
  | .read a => .next { (hostRead s a).1 with dr := (hostRead s a).2 }
  | .write a d => .next (hostWrite s a d)
  | .reset => .next (resetBlock s)
  | .engine => engineStep s

/-- The next event, and the events after it. A host that has nothing more to do leaves the block to the engine, so that
a pending command is completed in the end (R240; DESIGN CHOICE, unsafe: log entry 4). -/
def nextEvent (s : State) : HostEvent × List HostEvent :=
  match s.script with
  | [] => (.engine, [])
  | e :: rest => (e, rest)

/-- The state with a command word pending and the engine's step as the next event: what an accepted CMD write leaves
(R70), the engine then taking its step at once. -/
def presentCommand (s : State) (nbits w : Nat) : State :=
  { s with pend := some (BitVec.ofNat 32 (w % 2 ^ (min nbits 32))), script := .engine :: s.script }

end Sys2Proof.Machine
end

