-- ==== Sys2Proof/Machine/Step.lean ====
section
/-! DEFINITION. One step of the machine: one event of the single order in which host transactions, resets and engine
steps fall (20_memory.md R73). -/

namespace Sys2Proof.Machine

/-- One step: take the next event. -/
def step (s : State) : Host.Outcome State Fault Refusal :=
  eventStep (nextEvent s).1 { s with script := (nextEvent s).2 }

/-- The state in which the command word `w` is pending and the very next step runs it (DESIGN CHOICE, safe: log entry 5). -/
def State.withFetchWord (s : State) (nbits w : Nat) : State := presentCommand s nbits w

end Sys2Proof.Machine
end

