-- ==== Sys2Proof/Machine/Script.lean ====
section
/-! DEFINITION. The script notation of 30_encoding.md (R95, R96): each line is one host transaction or a fixed sequence
of them. A script is a list of host events, as `State.script` holds it. -/

namespace Sys2Proof.Machine

/-- R95: WR cell, value. -/
def scriptWr (c : CellName) (v : Word) : List HostEvent := [.write (addrOf c) v]

/-- R95: RD cell. -/
def scriptRd (c : CellName) : List HostEvent := [.read (addrOf c)]

/-- R95: CMD.RAW word. -/
def scriptCmdRaw (w : Word) : List HostEvent := scriptWr (.reg .cmd) w

/-- R95: CMD mnemonic. -/
def scriptCmd (i : Instr) : List HostEvent := scriptCmdRaw (encode i)

/-- R96: WAIT, with the number of polls that still see BUSY = 1; the engine steps after them, and the last poll sees
BUSY = 0. The number is not fixed (R239), so it is an argument (safe: log
entry 11). -/
def scriptWait (polls : Nat) : List HostEvent :=
  List.replicate polls (.read (addrOf (.reg .status))) ++ [.engine, .read (addrOf (.reg .status))]

/-- R96: RUN mnemonic. -/
def scriptRun (i : Instr) (polls : Nat) : List HostEvent := scriptCmd i ++ scriptWait polls

/-- R96: SETDIM h, w. -/
def scriptSetDim (h w : Word) : List HostEvent := scriptWr (.reg .imgh) h ++ scriptWr (.reg .imgw) w

/-- R96: the cells of an h × w matrix, row-major, each turned into script lines. -/
def scriptMatrix (h w : Nat) (f : Nat → Nat → List HostEvent) : List HostEvent :=
  (List.range h).flatMap fun r => (List.range w).flatMap fun c => f r c

/-- R96: LOADIMG M. It does not write IMGH or IMGW. -/
def scriptLoadImg (h w : Nat) (M : Mat) : List HostEvent :=
  scriptMatrix h w fun r c => scriptWr (.pix r c) (BitVec.ofInt 32 (M r c))

/-- R96: LOADSUB X, M. -/
def scriptLoadSub (b : Band) (h w : Nat) (M : Mat) : List HostEvent :=
  scriptMatrix h w fun k j => scriptWr (.coef b k j) (BitVec.ofInt 32 (M k j))

/-- R96: LOADMSG b0 b1 ... -/
def scriptLoadMsg (m : List Byte) : List HostEvent :=
  m.zipIdx.flatMap (fun p => scriptWr (.msg p.2) (p.1.setWidth 32)) ++
    scriptWr (.reg .msglen) (BitVec.ofNat 32 m.length)

/-- R96: the reads of EXPECTIMG. -/
def scriptExpectImg (h w : Nat) : List HostEvent := scriptMatrix h w fun r c => scriptRd (.pix r c)

/-- R96: the reads of EXPECTSUB. -/
def scriptExpectSub (b : Band) (h w : Nat) : List HostEvent := scriptMatrix h w fun k j => scriptRd (.coef b k j)

/-- R96: the reads of EXPECTMSG, MSGLEN first. -/
def scriptExpectMsg (n : Nat) : List HostEvent :=
  scriptRd (.reg .msglen) ++ (List.range n).flatMap fun i => scriptRd (.msg i)

end Sys2Proof.Machine
end

