-- ==== Sys2Proof/Safety.lean ====
section
/-! DEFINITION. The terms in which claims are made: when the operands of a command are accepted, the per-block formulas
the spec derives (40_lifting_arithmetic.md R116, R119), the state invariant, and a run without access faults. -/

namespace Sys2Proof.Machine

/-- R140: the dimensions a command accepts. -/
def DimsAccepted (s : State) : Prop :=
  1 ≤ s.imgh.toNat ∧ s.imgh.toNat ≤ s.cfg.maxh ∧ 1 ≤ s.imgw.toNat ∧ s.imgw.toNat ≤ s.cfg.maxw

/-- R152: the bitstream of the message fits: 8 × MSGLEN + 8 ≤ CAP. -/
def MessageFits (s : State) : Prop := 8 * s.msglen.toNat + 8 ≤ subh s * subw s

/-- R154: no byte of the message is zero. -/
def NoZeroByte (s : State) : Prop := ∀ i, i < s.msglen.toNat → msgAt s i ≠ 0

/-- R116: the four coefficients (LL, LH, HL, HH) of one 2 × 2 block [[a, b], [c, d]]. -/
def blockForward (a b c d : Int) : Int × Int × Int × Int :=
  let s0 := fdiv2 (a + b)
  let d0 := a - b
  let s1 := fdiv2 (c + d)
  let d1 := c - d
  (fdiv2 (s0 + s1), s0 - s1, fdiv2 (d0 + d1), d0 - d1)

/-- The 2 × 2 matrix [[a, b], [c, d]], read as its last row and column beyond. -/
def blockMatrix (a b c d : Int) : Mat := fun r j =>
  if r = 0 then if j = 0 then a else b else if j = 0 then c else d

/-- R119: the raw block [[a, b], [c, d]] of four coefficients. -/
def blockInverse (ll lh hl hh : Int) : Int × Int × Int × Int :=
  let s0 := ll + fdiv2 (lh + 1)
  let s1 := ll - fdiv2 lh
  let d0 := hl + fdiv2 (hh + 1)
  let d1 := hl - fdiv2 hh
  (s0 + fdiv2 (d0 + 1), s0 - fdiv2 d0, s1 + fdiv2 (d1 + 1), s1 - fdiv2 d1)

/-- The block at (k, j) of a matrix. -/
def blockAt (P : Mat) (k j : Nat) : Int × Int × Int × Int :=
  (P (2 * k) (2 * j), P (2 * k) (2 * j + 1), P (2 * k + 1) (2 * j), P (2 * k + 1) (2 * j + 1))

/-- The cells of a memory lie inside `rows` × `cols`. -/
def keysWithin {α : Type} (rows cols : Nat) (m : Memory α) : Prop :=
  ∀ x, x ∈ m → x.1 / 1024 < rows ∧ x.1 % 1024 < cols

/-- What every step keeps. -/
structure StateInv (s : State) : Prop where
  /-- PIX is in canonical form and lists only cells there are (R60, R62). -/
  pix_wf : s.pix.wf
  pix_keys : keysWithin s.cfg.maxh s.cfg.maxw s.pix
  /-- The subband memories likewise. -/
  band_wf : ∀ b, (bandMem s b).wf
  band_keys : ∀ b, keysWithin (maxhc s.cfg) (maxwc s.cfg) (bandMem s b)
  /-- Every coefficient fits CW bits (R20, R121, R127). -/
  band_range : ∀ b x, x ∈ bandMem s b → cmin s.cfg ≤ x.2 ∧ x.2 ≤ cmax s.cfg
  /-- MSG likewise. -/
  msg_wf : s.msg.wf
  msg_keys : ∀ x, x ∈ s.msg → x.1 < msgn s.cfg
  /-- ERR is never one of the codes 6 to 15 (R201). -/
  err_le : s.err.toNat ≤ 5
  /-- Without an error the information registers are 0 (R34). -/
  info_zero : s.err = 0 → s.errinfo0 = 0 ∧ s.errinfo1 = 0
  /-- TERM is set only beside ERR = 0 or NoPayloadFound (R30). -/
  term_err : s.term = true → s.err = 0 ∨ s.err = 5
  /-- CLIPCNT never saturates: it is at most MAXH × MAXW (R32). -/
  clip_le : s.clipcnt.toNat ≤ s.cfg.maxh * s.cfg.maxw
  /-- A clip count stands only beside ERR = 0 and TERM = 0 (R32, R220). -/
  clip_err : s.clipcnt ≠ 0 → s.err = 0 ∧ s.term = false

/-- R212: the host has broken no access rule since reset. -/
def AccessClean (s : State) : Prop := s.accerr = false

/-- A safe step: it answers a next state, and no access fault was recorded by it (R212: claims about a script
normally carry the premise that ACCERR stays 0). -/
def StepSafe (s : State) : Prop := ∃ t, step s = .next t ∧ (AccessClean s → AccessClean t)

end Sys2Proof.Machine
end

