-- ==== Sys2Proof/Certificates/Slice0/Obligations.lean ====
section
/-! DEFINITION. The statements about this machine that the provers settle, each a proposition. They follow the order of
the spec's files: encoding, host port, arithmetic, commands, errors, reset and the machine as a whole. -/

open Sys2Proof Sys2Proof.Machine

/-! ## Encoding and the engine step -/

/-- R91, R92: the words of the table decode to its seven commands; the next word and a word with a bit of 31:4 set are
rejected. The spec gives one answer, Illegal, for every rejected word: the two names of the reason, and which of them a
word gets, are the model's choice (log entry 8). -/
def Obligations.TableWordsDecode : Prop :=
  decode 0x00000000 = .ok .nop ∧ decode 0x00000001 = .ok .fwd ∧ decode 0x00000002 = .ok .inv ∧
  decode 0x00000003 = .ok .splice ∧ decode 0x00000004 = .ok .unsplice ∧ decode 0x00000005 = .ok .embed ∧
  decode 0x00000006 = .ok .extract ∧ decode 0x00000007 = .error (.reservedOp 0x00000007) ∧
  decode 0x00000010 = .error (.reservedBits 0x00000010) ∧ decode 0x80000001 = .error (.reservedBits 0x80000001)

/-- R91, R92, R97: over all 2^32 words, a word decodes to a command exactly when it is the command's word, every other
word is rejected, and execution dispatches on it, an illegal word to `fail IllegalCommand(w, 0)`. -/
def Obligations.DecodeAndEncodeAgree : Prop :=
  (∀ (w : Word) (i : Instr), decode w = .ok i ↔ w = encode i) ∧
  (∀ w : Word, (∀ i, w ≠ encode i) → ∃ e, decode w = .error e) ∧
  (∀ w : Word, wellFormedWord w = true ↔ ∃ i, w = encode i) ∧
  (∀ (i : Instr) (s : State), execWord (encode i) s = exec i s) ∧
  (∀ (w : Word) (s : State), (∀ i, w ≠ encode i) → execWord w s = .next (fail .illegalCommand w 0 s))

/-- R72, R97: when the next event is the engine's and the pending word decodes to a command, the step is the command's
meaning, and PEND is then empty. A host with nothing more to do leaves the next event to the engine (log entry 4). -/
def Obligations.StepRunsThePendingCommand : Prop :=
  ∀ (s : State) (w : Word) (i : Instr), (s.script = [] ∨ s.script.head? = some .engine) → s.pend = some w →
    decode w = .ok i → i.wellFormed = true →
    step s =
      match exec i { s with script := s.script.tail } with
      | .next t => .next { t with pend := none }
      | .fault r => .fault r
      | .refused r => .refused r

/-- The model's own way of placing a command (log entry 5): after `withFetchWord` the very next step runs it. -/
def Obligations.FetchWordRunsNext : Prop :=
  ∀ (s t : State) (i : Instr), exec i { s with pend := some (encode i) } = .next t →
    step (s.withFetchWord 32 (encode i).toNat) = .next { t with pend := none }

/-- R202, R203: a word that is none of the seven completes with IllegalCommand and its own word, whatever else the state
holds; nothing but the result group changes. R72: when that word is pending and the next event is the engine's, the step
is that completion, and PEND is then empty; the events of the script, and that an empty one leaves the next event to
the engine, are the model's form (log entry 4). -/
def Obligations.IllegalWordFails : Prop :=
  ∀ (s : State) (w : Word), (∀ i, w ≠ encode i) →
    execWord w s = .next { s with err := 1, errinfo0 := w, errinfo1 := 0, term := false, clipcnt := 0 } ∧
    ((s.script = [] ∨ s.script.head? = some .engine) → s.pend = some w →
      step s = .next { s with script := s.script.tail, pend := none, err := 1, errinfo0 := w, errinfo1 := 0,
                              term := false, clipcnt := 0 })

/-- R72, R219: when nothing is pending the engine has no step and all state is retained; the event is used up (the
model's own, log entry 4). -/
def Obligations.IdleEngineRetainsState : Prop :=
  ∀ s : State, (s.script = [] ∨ s.script.head? = some .engine) → s.pend = none →
    step s = .next { s with script := s.script.tail }

/-- How a step takes the next event of the host or of the reset input, the model's own form (log entries 3 and 4): the
transaction's or the reset's effect, the event used up, the word of a read in `dr`. -/
def Obligations.StepTakesTheNextEvent : Prop :=
  ∀ (s : State) (rest : List HostEvent),
    (∀ a, s.script = .read a :: rest → step s =
      .next { (hostRead { s with script := rest } a).1 with dr := (hostRead { s with script := rest } a).2 }) ∧
    (∀ a d, s.script = .write a d :: rest → step s = .next (hostWrite { s with script := rest } a d)) ∧
    (s.script = .reset :: rest → step s = .next (resetBlock { s with script := rest })) ∧
    (∀ t, step s = .next t → t.script = s.script.tail)

/-- R240: no state is stuck: every step answers a next state. -/
def Obligations.EveryStepAnswersNext : Prop := ∀ s : State, ∃ t, step s = .next t

/-- R240, R72, R71, R232: every command completes. When the host's events are used up, one more step leaves nothing
pending. A pending word that no reset abandons before the engine's turn is completed: the events before that turn leave
all it operates on as it was, and the step that follows them has the word's effect and empties PEND. That the engine
steps when the script is empty is the model's form of weak fairness (log entry 4). -/
def Obligations.PendingCommandCompletes : Prop :=
  ∀ s : State,
    (∃ t : State, Sys2Proof.core.run (s.script.length + 1) s = .next t ∧ t.pend = none ∧ t.script = []) ∧
    (∀ (w : Word) (before : List HostEvent), before = s.script.takeWhile (· ≠ .engine) →
      s.pend = some w → .reset ∉ before → ∃ u v : State,
        Sys2Proof.core.run before.length s = .next u ∧
        u = { s with accerr := u.accerr, dr := u.dr, script := s.script.drop before.length } ∧
        execWord w { u with script := u.script.tail } = .next v ∧
        Sys2Proof.core.run (before.length + 1) s = .next { v with pend := none })

/-! ## The host port -/

/-- R60, R61: cells and valid addresses correspond one to one, at the addresses of the table; register number n is at
A = n, with R35's numbers. -/
def Obligations.AddressesNameCells : Prop :=
  ∀ c : Config,
    (∀ a n, cellOfAddr c a = some n → cellExists c n = true ∧ addrOf n = a) ∧
    (∀ n, cellExists c n = true → cellOfAddr c (addrOf n) = some n) ∧
    (∀ r j, cellExists c (.pix r j) = true ↔ r < c.maxh ∧ j < c.maxw) ∧
    (∀ b k j, cellExists c (.coef b k j) = true ↔ k < c.maxh / 2 ∧ j < c.maxw / 2) ∧
    (∀ i, cellExists c (.msg i) = true ↔ i < c.maxh / 2 * (c.maxw / 2) / 8) ∧
    (∀ r, cellExists c (.reg r) = true ∧ (addrOf (.reg r)).toNat ≤ 13) ∧
    (addrOf (.reg .cmd) = 0 ∧ addrOf (.reg .status) = 1 ∧ addrOf (.reg .imgh) = 2 ∧ addrOf (.reg .imgw) = 3 ∧
      addrOf (.reg .msglen) = 4 ∧ addrOf (.reg .padh) = 5 ∧ addrOf (.reg .padw) = 6 ∧ addrOf (.reg .subh) = 7 ∧
      addrOf (.reg .subw) = 8 ∧ addrOf (.reg .cap) = 9 ∧ addrOf (.reg .bitlen) = 10 ∧ addrOf (.reg .clipcnt) = 11 ∧
      addrOf (.reg .errinfo0) = 12 ∧ addrOf (.reg .errinfo1) = 13) ∧
    (∀ r j, cellExists c (.pix r j) = true → (addrOf (.pix r j)).toNat = 0x100000 + 1024 * r + j) ∧
    (∀ k j, cellExists c (.coef .ll k j) = true → (addrOf (.coef .ll k j)).toNat = 0x200000 + 1024 * k + j) ∧
    (∀ k j, cellExists c (.coef .lh k j) = true → (addrOf (.coef .lh k j)).toNat = 0x300000 + 1024 * k + j) ∧
    (∀ k j, cellExists c (.coef .hl k j) = true → (addrOf (.coef .hl k j)).toNat = 0x400000 + 1024 * k + j) ∧
    (∀ k j, cellExists c (.coef .hh k j) = true → (addrOf (.coef .hh k j)).toNat = 0x500000 + 1024 * k + j) ∧
    (∀ i, cellExists c (.msg i) = true → (addrOf (.msg i)).toNat = 0x600000 + i)

/-- R62: the valid addresses, by their fields, whatever IMGH and IMGW hold, and what an access to another one does. -/
def Obligations.InvalidAddressSetsAccErr : Prop :=
  (∀ (c : Config) (a : Addr), (cellOfAddr c a).isSome = true ↔
    (a.toNat / 2 ^ 20 = 0 ∧ a.toNat % 2 ^ 20 ≤ 13) ∨
    (a.toNat / 2 ^ 20 = 1 ∧ a.toNat / 2 ^ 10 % 2 ^ 10 < c.maxh ∧ a.toNat % 2 ^ 10 < c.maxw) ∨
    (2 ≤ a.toNat / 2 ^ 20 ∧ a.toNat / 2 ^ 20 ≤ 5 ∧
      a.toNat / 2 ^ 10 % 2 ^ 10 < c.maxh / 2 ∧ a.toNat % 2 ^ 10 < c.maxw / 2) ∨
    (a.toNat / 2 ^ 20 = 6 ∧ a.toNat % 2 ^ 20 < c.maxh / 2 * (c.maxw / 2) / 8)) ∧
  (∀ (s : State) (a : Addr) (d : Word), cellOfAddr s.cfg a = none →
    hostWrite s a d = { s with accerr := true } ∧ hostRead s a = ({ s with accerr := true }, 0))

/-- R66: HostRead, every case of the rule: the state it leaves and the word it returns, with R63's widening. -/
def Obligations.HostReadReturnsCell : Prop :=
  ∀ (s : State) (a : Addr),
    (s.pend ≠ none → a = 1 → hostRead s a = (s, statusWord s)) ∧
    (s.pend ≠ none → a ≠ 1 → hostRead s a = ({ s with accerr := true }, 0)) ∧
    (s.pend = none → cellOfAddr s.cfg a = none → hostRead s a = ({ s with accerr := true }, 0)) ∧
    (s.pend = none → ∀ n, cellOfAddr s.cfg a = some n → hostRead s a = (s,
      match n with
      | .reg r => readReg s r
      | .pix row col => (pixAt s row col).setWidth 32
      | .coef b k j => (BitVec.ofInt s.cfg.cw (coefAt s b k j)).signExtend 32
      | .msg i => (msgAt s i).setWidth 32))

/-- R68, R35: what a read of each register number returns, the views among them, and that number 14 is no register. -/
def Obligations.RegisterReadValues : Prop :=
  ∀ s : State, s.pend = none →
    hostRead s 0 = (s, 0) ∧ hostRead s 1 = (s, statusWord s) ∧ (statusWord s).getLsbD 0 = false ∧
    hostRead s 2 = (s, s.imgh.setWidth 32) ∧ hostRead s 3 = (s, s.imgw.setWidth 32) ∧
    hostRead s 4 = (s, s.msglen.setWidth 32) ∧
    hostRead s 5 = (s, BitVec.ofNat 32 (s.imgh.toNat + s.imgh.toNat % 2)) ∧
    hostRead s 6 = (s, BitVec.ofNat 32 (s.imgw.toNat + s.imgw.toNat % 2)) ∧
    hostRead s 7 = (s, BitVec.ofNat 32 ((s.imgh.toNat + 1) / 2)) ∧
    hostRead s 8 = (s, BitVec.ofNat 32 ((s.imgw.toNat + 1) / 2)) ∧
    hostRead s 9 = (s, BitVec.ofNat 32 ((s.imgh.toNat + 1) / 2 * ((s.imgw.toNat + 1) / 2))) ∧
    hostRead s 10 = (s, BitVec.ofNat 32 (8 * s.msglen.toNat + 8)) ∧
    hostRead s 11 = (s, s.clipcnt) ∧ hostRead s 12 = (s, s.errinfo0) ∧ hostRead s 13 = (s, s.errinfo1) ∧
    hostRead s 14 = ({ s with accerr := true }, 0)

/-- R67, R69, R70, R63: HostWrite, every case of the rule: a busy block and an invalid address store nothing and set
ACCERR; a memory write changes the one cell; a register write changes the one register, PEND for CMD, or nothing. -/
def Obligations.HostWriteChangesOneCell : Prop :=
  ∀ (s : State) (a : Addr) (d : Word), ∃ t, t = hostWrite s a d ∧
    (s.pend ≠ none → t = { s with accerr := true }) ∧
    (s.pend = none → cellOfAddr s.cfg a = none → t = { s with accerr := true }) ∧
    (s.pend = none → ∀ row col, cellOfAddr s.cfg a = some (.pix row col) →
      t = { s with pix := t.pix } ∧ (pixAt t row col).toNat = d.toNat % 2 ^ 8 ∧
      ∀ r c, c < 1024 → (r, c) ≠ (row, col) → pixAt t r c = pixAt s r c) ∧
    (s.pend = none → ∀ b k j, cellOfAddr s.cfg a = some (.coef b k j) →
      t = { s with ll := t.ll, lh := t.lh, hl := t.hl, hh := t.hh } ∧
      coefAt t b k j = (if d.toNat % 2 ^ s.cfg.cw < 2 ^ (s.cfg.cw - 1) then ((d.toNat % 2 ^ s.cfg.cw : Nat) : Int)
        else ((d.toNat % 2 ^ s.cfg.cw : Nat) : Int) - 2 ^ s.cfg.cw) ∧
      ∀ b' r c, c < 1024 → (b', r, c) ≠ (b, k, j) → coefAt t b' r c = coefAt s b' r c) ∧
    (s.pend = none → ∀ i, cellOfAddr s.cfg a = some (.msg i) →
      t = { s with msg := t.msg } ∧ (msgAt t i).toNat = d.toNat % 2 ^ 8 ∧
      ∀ i', i' ≠ i → msgAt t i' = msgAt s i') ∧
    (s.pend = none → a = 0 → t = { s with pend := some d }) ∧
    (s.pend = none → a = 2 → t = { s with imgh := BitVec.ofNat 16 d.toNat }) ∧
    (s.pend = none → a = 3 → t = { s with imgw := BitVec.ofNat 16 d.toNat }) ∧
    (s.pend = none → a = 4 → t = { s with msglen := BitVec.ofNat 24 d.toNat }) ∧
    (s.pend = none → a = 1 ∨ (5 ≤ a.toNat ∧ a.toNat ≤ 13) → t = s)

/-- R63: a memory cell reads back as the low bits of the word written to it, zero-extended from 8 bits for a pixel or
a message byte, sign-extended from CW bits for a coefficient. -/
def Obligations.WrittenCellReadsBack : Prop :=
  ∀ (s : State) (a : Addr) (d : Word), s.pend = none →
    (∀ row col, cellOfAddr s.cfg a = some (.pix row col) →
      (hostRead (hostWrite s a d) a).2 = (d.setWidth 8).setWidth 32) ∧
    (∀ b k j, cellOfAddr s.cfg a = some (.coef b k j) →
      (hostRead (hostWrite s a d) a).2 = (d.setWidth s.cfg.cw).signExtend 32) ∧
    (∀ i, cellOfAddr s.cfg a = some (.msg i) → (hostRead (hostWrite s a d) a).2 = (d.setWidth 8).setWidth 32)

/-- R71: while a command is pending, a STATUS read returns STATUS with BUSY = 1 and changes nothing, every other read
returns 0 and sets ACCERR, every write is dropped and sets ACCERR; so the pending word and all it operates on stay. -/
def Obligations.BusyRuleProtectsTheCommand : Prop :=
  ∀ (s : State) (w : Word), s.pend = some w →
    hostRead s 1 = (s, statusWord s) ∧ (statusWord s).getLsbD 0 = true ∧
    (∀ a, a ≠ 1 → hostRead s a = ({ s with accerr := true }, 0)) ∧
    (∀ a d, hostWrite s a d = { s with accerr := true })

/-- R28: the fields of the STATUS word; and a write to STATUS changes nothing. -/
def Obligations.StatusWordFields : Prop :=
  ∀ s : State,
    (statusWord s).getLsbD 0 = s.pend.isSome ∧ (statusWord s).extractLsb' 1 3 = 0 ∧
    (statusWord s).extractLsb' 4 4 = s.err ∧ (statusWord s).getLsbD 8 = s.term ∧
    (statusWord s).getLsbD 9 = decide (s.clipcnt ≠ 0) ∧ (statusWord s).extractLsb' 10 6 = 0 ∧
    (statusWord s).getLsbD 16 = s.accerr ∧ (statusWord s).extractLsb' 17 15 = 0 ∧
    (s.pend = none → ∀ d, hostWrite s 1 d = s)

/-- R24: the views are exact for every register content, legal or not, and within the rule's bounds; they are what a
read of their six numbers returns, and a write to one of these changes no state (while busy, ACCERR alone: R71). -/
def Obligations.ViewsAreExact : Prop :=
  ∀ s : State,
    (readReg s .padh).toNat = s.imgh.toNat + s.imgh.toNat % 2 ∧
    (readReg s .padw).toNat = s.imgw.toNat + s.imgw.toNat % 2 ∧
    (readReg s .subh).toNat = (s.imgh.toNat + 1) / 2 ∧
    (readReg s .subw).toNat = (s.imgw.toNat + 1) / 2 ∧
    (readReg s .cap).toNat = (s.imgh.toNat + 1) / 2 * ((s.imgw.toNat + 1) / 2) ∧
    (readReg s .bitlen).toNat = 8 * s.msglen.toNat + 8 ∧
    (readReg s .padh).toNat ≤ 65536 ∧ (readReg s .padw).toNat ≤ 65536 ∧
    (readReg s .subh).toNat ≤ 32768 ∧ (readReg s .subw).toNat ≤ 32768 ∧
    (readReg s .cap).toNat ≤ 2 ^ 30 ∧ (readReg s .bitlen).toNat ≤ 2 ^ 27 ∧
    (s.pend = none →
      hostRead s 5 = (s, readReg s .padh) ∧ hostRead s 6 = (s, readReg s .padw) ∧ hostRead s 7 = (s, readReg s .subh) ∧
      hostRead s 8 = (s, readReg s .subw) ∧ hostRead s 9 = (s, readReg s .cap) ∧
      hostRead s 10 = (s, readReg s .bitlen)) ∧
    (∀ (a : Addr) (d : Word), 5 ≤ a.toNat → a.toNat ≤ 10 →
      (s.pend = none → hostWrite s a d = s) ∧ (s.pend ≠ none → hostWrite s a d = { s with accerr := true }))

/-- R33: ACCERR is set by every access that breaks a rule, cleared by nothing but reset, and neither read nor written
by a command. -/
def Obligations.AccErrIsSticky : Prop :=
  (∀ s t : State, step s = .next t → s.accerr = true → s.script.head? ≠ some .reset → t.accerr = true) ∧
  (∀ (s t : State) (a : Addr), step s = .next t → s.script.head? = some (.read a) →
    (s.pend = none ∧ cellOfAddr s.cfg a = none ∨ s.pend ≠ none ∧ a ≠ 1) → t.accerr = true) ∧
  (∀ (s t : State) (a : Addr) (d : Word), step s = .next t → s.script.head? = some (.write a d) →
    (s.pend = none ∧ cellOfAddr s.cfg a = none ∨ s.pend ≠ none) → t.accerr = true) ∧
  (∀ (i : Instr) (s t : State) (b : Bool), exec i s = .next t →
    t.accerr = s.accerr ∧ exec i { s with accerr := b } = .next { t with accerr := b })

/-! ## Lifting arithmetic and the bitstream -/

/-- R122: lift and unlift are mutually inverse on all integers. -/
def Obligations.LiftAndUnliftInverse : Prop :=
  (∀ a b : Int, unlift (lift a b).1 (lift a b).2 = (a, b)) ∧
  (∀ s d : Int, lift (unlift s d).1 (unlift s d).2 = (s, d))

/-- R123: perfect reconstruction of every integer matrix, padded; and nothing is clipped when every cell is a pixel. -/
def Obligations.PerfectReconstruction : Prop :=
  ∀ (h w : Nat) (P : Mat), 1 ≤ h → 1 ≤ w →
    (∀ r c, r < h + h % 2 → c < w + w % 2 → inv2dRaw (fwd2d h w P) r c = pad h w P r c) ∧
    ((∀ r c, r < h → c < w → 0 ≤ P r c ∧ P r c ≤ 255) →
      (inv2d ((h + h % 2) / 2) ((w + w % 2) / 2) (fwd2d h w P)).2 = 0 ∧
      ∀ r c, r < h + h % 2 → c < w + w % 2 →
        (inv2d ((h + h % 2) / 2) ((w + w % 2) / 2) (fwd2d h w P)).1 r c = pad h w P r c)

/-- R124: the forward transform of the raw reconstruction is the quadruple; of the clipped one too when nothing was
clipped. -/
def Obligations.ForwardAfterInverse : Prop :=
  ∀ (hc wc : Nat) (X : Subbands) (k j : Nat), k < hc → j < wc →
    ((fwd2d (2 * hc) (2 * wc) (inv2dRaw X)).ll k j = X.ll k j ∧ (fwd2d (2 * hc) (2 * wc) (inv2dRaw X)).lh k j = X.lh k j ∧
      (fwd2d (2 * hc) (2 * wc) (inv2dRaw X)).hl k j = X.hl k j ∧ (fwd2d (2 * hc) (2 * wc) (inv2dRaw X)).hh k j = X.hh k j) ∧
    ((inv2d hc wc X).2 = 0 →
      (fwd2d (2 * hc) (2 * wc) (inv2d hc wc X).1).ll k j = X.ll k j ∧
      (fwd2d (2 * hc) (2 * wc) (inv2d hc wc X).1).lh k j = X.lh k j ∧
      (fwd2d (2 * hc) (2 * wc) (inv2d hc wc X).1).hl k j = X.hl k j ∧
      (fwd2d (2 * hc) (2 * wc) (inv2d hc wc X).1).hh k j = X.hh k j)

/-- R121: the ranges of the forward transform on pixels, all within an 11-bit cell, and each bound reached: S and D by a
block's own row, LL, LH, HL and HH by the block formula, which is the transform of the 2 × 2 matrix. -/
def Obligations.ForwardRanges : Prop :=
  (∀ (h w : Nat) (P : Mat), 1 ≤ h → 1 ≤ w → (∀ r c, r < h → c < w → 0 ≤ P r c ∧ P r c ≤ 255) → ∀ k j : Nat,
    (0 ≤ fwdS (pad h w P) k j ∧ fwdS (pad h w P) k j ≤ 255) ∧
    (-255 ≤ fwdD (pad h w P) k j ∧ fwdD (pad h w P) k j ≤ 255) ∧
    (0 ≤ (fwd2d h w P).ll k j ∧ (fwd2d h w P).ll k j ≤ 255) ∧
    (-255 ≤ (fwd2d h w P).lh k j ∧ (fwd2d h w P).lh k j ≤ 255) ∧
    (-255 ≤ (fwd2d h w P).hl k j ∧ (fwd2d h w P).hl k j ≤ 255) ∧
    (-510 ≤ (fwd2d h w P).hh k j ∧ (fwd2d h w P).hh k j ≤ 510)) ∧
  blockForward 255 255 255 255 = (255, 0, 0, 0) ∧ blockForward 0 0 0 0 = (0, 0, 0, 0) ∧
  (blockForward 255 255 0 0).2.1 = 255 ∧ (blockForward 0 0 255 255).2.1 = -255 ∧
  (blockForward 255 0 255 0).2.2.1 = 255 ∧ (blockForward 0 255 0 255).2.2.1 = -255 ∧
  (blockForward 255 0 0 255).2.2.2 = 510 ∧ (blockForward 0 255 255 0).2.2.2 = -510 ∧
  (∀ a b c d : Int, blockForward a b c d =
    ((fwd2d 2 2 (blockMatrix a b c d)).ll 0 0, (fwd2d 2 2 (blockMatrix a b c d)).lh 0 0,
      (fwd2d 2 2 (blockMatrix a b c d)).hl 0 0, (fwd2d 2 2 (blockMatrix a b c d)).hh 0 0)) ∧
  fwdS (pad 2 2 (blockMatrix 255 255 255 255)) 0 0 = 255 ∧ fwdS (pad 2 2 (blockMatrix 0 0 0 0)) 0 0 = 0 ∧
  fwdD (pad 2 2 (blockMatrix 255 0 255 0)) 0 0 = 255 ∧ fwdD (pad 2 2 (blockMatrix 0 255 0 255)) 0 0 = -255

/-- R125: with coefficient cells in [-M, M - 1], M = 2^(CW-1), the intermediates lie in [-3M/2, 3M/2 - 1] and the raw
reconstruction in [-9M/4, 9M/4 - 1], one more at the lower end in odd columns; all four bounds are reached. -/
def Obligations.InverseRanges : Prop :=
  ∀ (cw : Nat) (M : Int), 11 ≤ cw → M = 2 ^ (cw - 1) →
    (∀ X : Subbands,
      (∀ k j : Nat, (-M ≤ X.ll k j ∧ X.ll k j ≤ M - 1) ∧ (-M ≤ X.lh k j ∧ X.lh k j ≤ M - 1) ∧
        (-M ≤ X.hl k j ∧ X.hl k j ≤ M - 1) ∧ (-M ≤ X.hh k j ∧ X.hh k j ≤ M - 1)) →
      ∀ r c : Nat,
        (-(3 * M) ≤ 2 * invRows X.ll X.lh r c ∧ 2 * invRows X.ll X.lh r c ≤ 3 * M - 2) ∧
        (-(3 * M) ≤ 2 * invRows X.hl X.hh r c ∧ 2 * invRows X.hl X.hh r c ≤ 3 * M - 2) ∧
        (-(9 * M) ≤ 4 * inv2dRaw X r c ∧ 4 * inv2dRaw X r c ≤ 9 * M - 4) ∧
        (c % 2 = 1 → -(9 * M) + 4 ≤ 4 * inv2dRaw X r c)) ∧
    2 * (unlift (-M) (-M)).1 = -(3 * M) ∧ 2 * (unlift (M - 1) (M - 1)).1 = 3 * M - 2 ∧
    4 * (blockInverse (-M) (-M) (-M) (-M)).1 = -(9 * M) ∧
    4 * (blockInverse (M - 1) (M - 1) (M - 1) (M - 1)).1 = 9 * M - 4

/-- R126: an odd height leaves LH and HH zero on the last subband row, an odd width HL and HH on the last column;
coefficients that are zero there reconstruct equal rows or columns; and a matrix whose extra row or column equals its
neighbour has the same four subbands at its padded size and cropped. -/
def Obligations.ReplicatedEdges : Prop :=
  ∀ (h w : Nat) (P : Mat) (X : Subbands),
    (h % 2 = 1 → ∀ j, (fwd2d h w P).lh ((h + h % 2) / 2 - 1) j = 0 ∧ (fwd2d h w P).hh ((h + h % 2) / 2 - 1) j = 0) ∧
    (w % 2 = 1 → ∀ k, (fwd2d h w P).hl k ((w + w % 2) / 2 - 1) = 0 ∧ (fwd2d h w P).hh k ((w + w % 2) / 2 - 1) = 0) ∧
    (∀ k, (∀ j, X.lh k j = 0 ∧ X.hh k j = 0) → ∀ c,
      inv2dRaw X (2 * k) c = inv2dRaw X (2 * k + 1) c ∧ clip (inv2dRaw X (2 * k) c) = clip (inv2dRaw X (2 * k + 1) c)) ∧
    (∀ j, (∀ k, X.hl k j = 0 ∧ X.hh k j = 0) → ∀ r,
      inv2dRaw X r (2 * j) = inv2dRaw X r (2 * j + 1) ∧ clip (inv2dRaw X r (2 * j)) = clip (inv2dRaw X r (2 * j + 1))) ∧
    ((h % 2 = 1 → ∀ c, P (h - 1) c = P h c) → (w % 2 = 1 → ∀ r, P r (w - 1) = P r w) →
      ∀ k j, 2 * k < h → 2 * j < w →
        (fwd2d (h + h % 2) (w + w % 2) P).ll k j = (fwd2d h w P).ll k j ∧
        (fwd2d (h + h % 2) (w + w % 2) P).lh k j = (fwd2d h w P).lh k j ∧
        (fwd2d (h + h % 2) (w + w % 2) P).hl k j = (fwd2d h w P).hl k j ∧
        (fwd2d (h + h % 2) (w + w % 2) P).hh k j = (fwd2d h w P).hh k j)

/-- R127: on a CW-bit two's-complement cell, lsb is bit 0 and setlsb replaces bit 0 and keeps the others; the cell's
range is kept and the value moves by at most one. -/
def Obligations.SetLsbReplacesBitZero : Prop :=
  ∀ (cw : Nat) (c : Int) (b : Bool), 11 ≤ cw → -(2 ^ (cw - 1) : Int) ≤ c → c ≤ 2 ^ (cw - 1) - 1 →
    lsb c = (BitVec.ofInt cw c).getLsbD 0 ∧
    (BitVec.ofInt cw (setlsb c b)).getLsbD 0 = b ∧
    (∀ n, 1 ≤ n → (BitVec.ofInt cw (setlsb c b)).getLsbD n = (BitVec.ofInt cw c).getLsbD n) ∧
    lsb (setlsb c b) = b ∧ setlsb c (lsb c) = c ∧ (∀ b', setlsb (setlsb c b) b' = setlsb c b') ∧
    (setlsb c b - c = 1 ↔ c % 2 = 0 ∧ b = true) ∧ (setlsb c b - c = -1 ↔ c % 2 = 1 ∧ b = false) ∧
    (setlsb c b - c = -1 ∨ setlsb c b - c = 0 ∨ setlsb c b - c = 1) ∧
    -(2 ^ (cw - 1) : Int) ≤ setlsb c b ∧ setlsb c b ≤ 2 ^ (cw - 1) - 1

/-- R128: a change of one LL coefficient by δ changes the four raw cells of its block by exactly δ and no other. -/
def Obligations.UnitChangeShiftsBlock : Prop :=
  ∀ (X Y : Subbands) (k j : Nat) (δ : Int), Y.lh = X.lh → Y.hl = X.hl → Y.hh = X.hh →
    Y.ll k j = X.ll k j + δ → (∀ k' j', (k', j') ≠ (k, j) → Y.ll k' j' = X.ll k' j') →
    ∀ r c, inv2dRaw Y r c = if r / 2 = k ∧ c / 2 = j then inv2dRaw X r c + δ else inv2dRaw X r c

/-- R130, R131: the elements of a bitstream. -/
def Obligations.BitstreamElements : Prop :=
  ∀ m : List Byte, (bitstream m).length = 8 * m.length + 8 ∧
    (∀ (i : Nat) (v : Byte), m[i / 8]? = some v →
      (bitstream m)[i]? = some (decide (v.toNat / 2 ^ (7 - i % 8) % 2 = 1))) ∧
    (∀ i, 8 * m.length ≤ i → i < 8 * m.length + 8 → (bitstream m)[i]? = some false)

/-- R132: the decoder delivers the values of the complete groups before the first all-zero one, or of all of them. The
value of group q is the sum of its bits, the first weighing 2^7. -/
def Obligations.DecodeGroupsDelivers : Prop :=
  ∀ β : List Bool, ∃ g : Nat → Nat,
    (∀ q, g q = ((List.range 8).map fun t => (β.getD (8 * q + t) false).toNat * 2 ^ (7 - t)).sum) ∧
    (∀ i (h : i < (decodeGroups β).1.length), ((decodeGroups β).1[i]).toNat = g i ∧ g i ≠ 0) ∧
    ((decodeGroups β).2 = true → (decodeGroups β).1.length < β.length / 8 ∧ g (decodeGroups β).1.length = 0) ∧
    ((decodeGroups β).2 = false → (decodeGroups β).1.length = β.length / 8)

/-- R133: the bitstream round trip, whatever follows; a message with a zero byte is cut at the first one. -/
def Obligations.BitstreamRoundTrip : Prop :=
  (∀ (m : List Byte) (τ : List Bool), (∀ v ∈ m, v ≠ 0) → decodeGroups (bitstream m ++ τ) = (m, true)) ∧
  (∀ (m rest : List Byte) (τ : List Bool), (∀ v ∈ m, v ≠ 0) →
    decodeGroups (bitstream (m ++ 0 :: rest) ++ τ) = (m, true))

/-! ## The commands -/

/-- R161: NOP rewrites the result group and nothing else. -/
def Obligations.NopRewritesResultGroup : Prop :=
  ∀ s : State, exec .nop s = .next { s with err := 0, errinfo0 := 0, errinfo1 := 0, term := false, clipcnt := 0 }

/-- R141, R116: FWD stores the four coefficients of every 2 × 2 block of the padded image in the live region, reading
PIX through the clamp, and writes nothing else but the result group; with dimensions not accepted it fails BadDim. -/
def Obligations.FwdStoresBlockTransforms : Prop :=
  ∀ s : State,
    (DimsAccepted s → ∃ t, exec .fwd s = .next t ∧
      t = { s with ll := t.ll, lh := t.lh, hl := t.hl, hh := t.hh,
                   err := 0, errinfo0 := 0, errinfo1 := 0, term := false, clipcnt := 0 } ∧
      (∀ k j, k < subh s → j < subw s →
        (coefAt t .ll k j, coefAt t .lh k j, coefAt t .hl k j, coefAt t .hh k j) =
          (let p : Nat → Nat → Int := fun r c =>
            ((pixAt s (min r (s.imgh.toNat - 1)) (min c (s.imgw.toNat - 1))).toNat : Int)
          blockForward (p (2 * k) (2 * j)) (p (2 * k) (2 * j + 1)) (p (2 * k + 1) (2 * j)) (p (2 * k + 1) (2 * j + 1)))) ∧
      (∀ b k j, j < 1024 → ¬(k < subh s ∧ j < subw s) → coefAt t b k j = coefAt s b k j)) ∧
    (¬DimsAccepted s → exec .fwd s = .next { s with
      err := 2, errinfo0 := s.imgh.setWidth 32, errinfo1 := s.imgw.setWidth 32, term := false, clipcnt := 0 })

/-- R142, R119, R120: INV stores the clipped reconstruction of every block over the padded size, counts the cells it
clipped, and writes nothing else; with dimensions not accepted it fails BadDim. -/
def Obligations.InvStoresClippedReconstruction : Prop :=
  ∀ s : State,
    (DimsAccepted s → ∃ t, exec .inv s = .next t ∧
      t = { s with pix := t.pix, err := 0, errinfo0 := 0, errinfo1 := 0, term := false, clipcnt := t.clipcnt } ∧
      (∀ k j, k < subh s → j < subw s → ∀ R, R = inv2dRaw (subbands s) →
        blockAt R k j = blockInverse (coefAt s .ll k j) (coefAt s .lh k j) (coefAt s .hl k j) (coefAt s .hh k j)) ∧
      (∀ r c, r < padh s → c < padw s → ((pixAt t r c).toNat : Int) =
        (if inv2dRaw (subbands s) r c < 0 then 0
          else if 255 < inv2dRaw (subbands s) r c then 255 else inv2dRaw (subbands s) r c)) ∧
      (∀ r c, c < 1024 → ¬(r < padh s ∧ c < padw s) → pixAt t r c = pixAt s r c) ∧
      t.clipcnt.toNat = ((Finset.range (padh s) ×ˢ Finset.range (padw s)).filter fun x =>
        inv2dRaw (subbands s) x.1 x.2 < 0 ∨ 255 < inv2dRaw (subbands s) x.1 x.2).card) ∧
    (¬DimsAccepted s → exec .inv s = .next { s with
      err := 2, errinfo0 := s.imgh.setWidth 32, errinfo1 := s.imgw.setWidth 32, term := false, clipcnt := 0 })

/-- R153, R155: SPLICE replaces bit 0 of the first BITLEN coefficients of LL in row-major order by the bits of the
message, and changes nothing else but the result group; else it fails BadDim, CapacityExceeded or NulInPayload. -/
def Obligations.SpliceReplacesLowBits : Prop :=
  ∀ s : State,
    (DimsAccepted s → MessageFits s → NoZeroByte s → ∃ t, exec .splice s = .next t ∧
      t = { s with ll := t.ll, err := 0, errinfo0 := 0, errinfo1 := 0, term := false, clipcnt := 0 } ∧
      (∀ i b, i < 8 * s.msglen.toNat + 8 →
        (bitstream ((List.range s.msglen.toNat).map (msgAt s)))[i]? = some b →
        coefAt t .ll (i / subw s) (i % subw s) = setlsb (coefAt s .ll (i / subw s) (i % subw s)) b) ∧
      (∀ k j, j < 1024 → ¬(j < subw s ∧ k * subw s + j < 8 * s.msglen.toNat + 8) →
        coefAt t .ll k j = coefAt s .ll k j)) ∧
    (¬DimsAccepted s → exec .splice s = .next { s with
      err := 2, errinfo0 := s.imgh.setWidth 32, errinfo1 := s.imgw.setWidth 32, term := false, clipcnt := 0 }) ∧
    (DimsAccepted s → ¬MessageFits s → exec .splice s = .next { s with
      err := 3, errinfo0 := BitVec.ofNat 32 (8 * s.msglen.toNat + 8), errinfo1 := BitVec.ofNat 32 (subh s * subw s),
      term := false, clipcnt := 0 }) ∧
    (DimsAccepted s → MessageFits s → ∀ p, p < s.msglen.toNat → msgAt s p = 0 → (∀ q, q < p → msgAt s q ≠ 0) →
      exec .splice s = .next { s with
        err := 4, errinfo0 := BitVec.ofNat 32 p, errinfo1 := 0, term := false, clipcnt := 0 })

/-- R156: UNSPLICE decodes the least-significant bits of the live region of LL in row-major order into MSG and MSGLEN,
with R157's condition in ERR, and changes nothing else; with dimensions not accepted it fails BadDim. -/
def Obligations.UnspliceDecodesLowBits : Prop :=
  ∀ s : State,
    (DimsAccepted s → ∃ t out f, exec .unsplice s = .next t ∧
      decodeGroups ((List.range (subh s * subw s)).map fun i => lsb (coefAt s .ll (i / subw s) (i % subw s))) = (out, f) ∧
      t = { s with msg := t.msg, msglen := t.msglen, err := t.err, term := f,
                   errinfo0 := 0, errinfo1 := 0, clipcnt := 0 } ∧
      t.msglen.toNat = out.length ∧ (∀ i (h : i < out.length), msgAt t i = out[i]) ∧
      (∀ i, out.length ≤ i → msgAt t i = msgAt s i) ∧
      t.err = (if out.length = 0 ∨ f = false then 5 else 0)) ∧
    (¬DimsAccepted s → exec .unsplice s = .next { s with
      err := 2, errinfo0 := s.imgh.setWidth 32, errinfo1 := s.imgw.setWidth 32, term := false, clipcnt := 0 })

/-- R162: EMBED stores the forward transform of the image with the message's bits spliced into LL, and the clipped
reconstruction of that quadruple over the padded size of PIX, and counts the cells it clipped; else it fails BadDim,
CapacityExceeded or NulInPayload. -/
def Obligations.EmbedStoresStegoImage : Prop :=
  ∀ s : State,
    (DimsAccepted s → MessageFits s → NoZeroByte s → ∃ t X, exec .embed s = .next t ∧
      X.lh = (fwd2d s.imgh.toNat s.imgw.toNat (image s)).lh ∧ X.hl = (fwd2d s.imgh.toNat s.imgw.toNat (image s)).hl ∧
      X.hh = (fwd2d s.imgh.toNat s.imgw.toNat (image s)).hh ∧
      (∀ k j, k < subh s → j < subw s → X.ll k j =
        match (bitstream ((List.range s.msglen.toNat).map (msgAt s)))[k * subw s + j]? with
        | some b => setlsb ((fwd2d s.imgh.toNat s.imgw.toNat (image s)).ll k j) b
        | none => (fwd2d s.imgh.toNat s.imgw.toNat (image s)).ll k j) ∧
      t = { s with pix := t.pix, ll := t.ll, lh := t.lh, hl := t.hl, hh := t.hh,
                   err := 0, errinfo0 := 0, errinfo1 := 0, term := false, clipcnt := t.clipcnt } ∧
      (∀ k j, k < subh s → j < subw s → coefAt t .ll k j = X.ll k j ∧ coefAt t .lh k j = X.lh k j ∧
        coefAt t .hl k j = X.hl k j ∧ coefAt t .hh k j = X.hh k j) ∧
      (∀ b k j, j < 1024 → ¬(k < subh s ∧ j < subw s) → coefAt t b k j = coefAt s b k j) ∧
      (∀ r c, r < padh s → c < padw s → ((pixAt t r c).toNat : Int) = clip (inv2dRaw X r c)) ∧
      (∀ r c, c < 1024 → ¬(r < padh s ∧ c < padw s) → pixAt t r c = pixAt s r c) ∧
      t.clipcnt.toNat = ((Finset.range (padh s) ×ˢ Finset.range (padw s)).filter fun x =>
        inv2dRaw X x.1 x.2 < 0 ∨ 255 < inv2dRaw X x.1 x.2).card) ∧
    (¬DimsAccepted s → exec .embed s = .next { s with
      err := 2, errinfo0 := s.imgh.setWidth 32, errinfo1 := s.imgw.setWidth 32, term := false, clipcnt := 0 }) ∧
    (DimsAccepted s → ¬MessageFits s → exec .embed s = .next { s with
      err := 3, errinfo0 := BitVec.ofNat 32 (8 * s.msglen.toNat + 8), errinfo1 := BitVec.ofNat 32 (subh s * subw s),
      term := false, clipcnt := 0 }) ∧
    (DimsAccepted s → MessageFits s → ∀ p, p < s.msglen.toNat → msgAt s p = 0 → (∀ q, q < p → msgAt s q ≠ 0) →
      exec .embed s = .next { s with
        err := 4, errinfo0 := BitVec.ofNat 32 p, errinfo1 := 0, term := false, clipcnt := 0 })

/-- R162 (a), (b), R128: EMBED raises every pixel of the padded image by the change of its block's LL coefficient, at
most one and 0 beyond the bitstream, and then clips. -/
def Obligations.EmbedShiftsEachBlock : Prop :=
  ∀ s t : State, exec .embed s = .next t → t.err = 0 → ∃ δ : Nat → Nat → Int,
    (∀ k j, (δ k j = -1 ∨ δ k j = 0 ∨ δ k j = 1) ∧ (8 * s.msglen.toNat + 8 ≤ k * subw s + j → δ k j = 0) ∧
      ∀ b, (bitstream ((List.range s.msglen.toNat).map (msgAt s)))[k * subw s + j]? = some b →
        δ k j = setlsb ((fwd2d s.imgh.toNat s.imgw.toNat (image s)).ll k j) b -
          (fwd2d s.imgh.toNat s.imgw.toNat (image s)).ll k j) ∧
    ∀ r c, r < padh s → c < padw s → ((pixAt t r c).toNat : Int) =
      clip ((pixAt s (min r (s.imgh.toNat - 1)) (min c (s.imgw.toNat - 1))).toNat + δ (r / 2) (c / 2))

/-- R126, R162 (c): the extra row or column of a stego image of odd size equals its neighbour. -/
def Obligations.StegoEdgesStayReplicated : Prop :=
  ∀ s t : State, exec .embed s = .next t → t.err = 0 →
    (s.imgh.toNat % 2 = 1 → ∀ c, c < padw s → pixAt t s.imgh.toNat c = pixAt t (s.imgh.toNat - 1) c) ∧
    (s.imgw.toNat % 2 = 1 → ∀ r, r < padh s → pixAt t r s.imgw.toNat = pixAt t r (s.imgw.toNat - 1))

/-- R163: EXTRACT stores the forward transform of the image and decodes the least-significant bits of its LL into MSG
and MSGLEN; it does not write PIX; with dimensions not accepted it fails BadDim. -/
def Obligations.ExtractDecodesImage : Prop :=
  ∀ s : State,
    (DimsAccepted s → ∃ t X out f, exec .extract s = .next t ∧
      X = fwd2d s.imgh.toNat s.imgw.toNat (image s) ∧
      decodeGroups ((List.range (subh s * subw s)).map fun i => lsb (X.ll (i / subw s) (i % subw s))) = (out, f) ∧
      t = { s with ll := t.ll, lh := t.lh, hl := t.hl, hh := t.hh, msg := t.msg, msglen := t.msglen,
                   err := t.err, term := f, errinfo0 := 0, errinfo1 := 0, clipcnt := 0 } ∧
      (∀ k j, k < subh s → j < subw s → coefAt t .ll k j = X.ll k j ∧ coefAt t .lh k j = X.lh k j ∧
        coefAt t .hl k j = X.hl k j ∧ coefAt t .hh k j = X.hh k j) ∧
      (∀ b k j, j < 1024 → ¬(k < subh s ∧ j < subw s) → coefAt t b k j = coefAt s b k j) ∧
      t.msglen.toNat = out.length ∧ (∀ i (h : i < out.length), msgAt t i = out[i]) ∧
      (∀ i, out.length ≤ i → msgAt t i = msgAt s i) ∧
      t.err = (if out.length = 0 ∨ f = false then 5 else 0)) ∧
    (¬DimsAccepted s → exec .extract s = .next { s with
      err := 2, errinfo0 := s.imgh.setWidth 32, errinfo1 := s.imgw.setWidth 32, term := false, clipcnt := 0 })

/-- R164: where EMBED completes without error, its state is the one FWD, SPLICE and INV leave in turn, each completing
without error; where it fails, SPLICE alone fails the same way. The premise is the canonical form of LL, which every
step keeps. -/
def Obligations.EmbedIsFwdSpliceInv : Prop :=
  ∀ s t : State, s.ll.wf → exec .embed s = .next t →
    (t.err = 0 → ∃ t1 t2, exec .fwd s = .next t1 ∧ exec .splice t1 = .next t2 ∧ exec .inv t2 = .next t ∧
      t1.err = 0 ∧ t2.err = 0) ∧
    (t.err ≠ 0 → exec .splice s = .next t)

/-- R163: EXTRACT is FWD followed by UNSPLICE, on the whole state, for every state; on BadDim both leave the data. -/
def Obligations.ExtractIsFwdUnsplice : Prop :=
  ∀ s t : State, exec .extract s = .next t → ∃ t1, exec .fwd s = .next t1 ∧ exec .unsplice t1 = .next t

/-- R142 (b): INV after a FWD of the same size writes the padded image back and clips nothing. -/
def Obligations.InvAfterFwdRestoresImage : Prop :=
  ∀ s t : State, DimsAccepted s → exec .fwd s = .next t → ∃ u, exec .inv t = .next u ∧ u.clipcnt = 0 ∧ u.err = 0 ∧
    (∀ r c, r < padh s → c < padw s →
      pixAt u r c = pixAt s (min r (s.imgh.toNat - 1)) (min c (s.imgw.toNat - 1)))

/-- R158: what SPLICE wrote, UNSPLICE reads, from any state with the same configuration, dimensions and LL. -/
def Obligations.SpliceThenUnsplice : Prop :=
  ∀ s t u : State, exec .splice s = .next t → t.err = 0 →
    u.cfg = t.cfg → u.imgh = t.imgh → u.imgw = t.imgw → u.ll = t.ll →
    ∃ v, exec .unsplice u = .next v ∧ v.msglen = s.msglen ∧ (∀ i, i < s.msglen.toNat → msgAt v i = msgAt s i) ∧
      v.term = true ∧ v.err = (if s.msglen = 0 then 5 else 0)

/-- R167: what EMBED hid without clipping, EXTRACT finds, from any state with the same configuration and PIX, its
dimensions unchanged or set to the padded size. -/
def Obligations.EmbedThenExtract : Prop :=
  ∀ s t u : State, exec .embed s = .next t → t.err = 0 → t.clipcnt = 0 → 1 ≤ s.msglen.toNat →
    u.cfg = t.cfg → u.pix = t.pix →
    ((u.imgh.toNat = s.imgh.toNat ∧ u.imgw.toNat = s.imgw.toNat) ∨
      (u.imgh.toNat = padh s ∧ u.imgw.toNat = padw s)) →
    ∃ v, exec .extract u = .next v ∧ v.msglen = s.msglen ∧ (∀ i, i < s.msglen.toNat → msgAt v i = msgAt s i) ∧
      v.term = true ∧ v.err = 0

/-- R163: EXTRACT is a function of the image alone: two states that agree on the configuration, the dimensions and the
pixels of the image agree on all it delivers, whatever their subbands, message, result group and other pixels hold. -/
def Obligations.ExtractReadsOnlyTheImage : Prop :=
  ∀ s1 s2 t1 t2 : State, s1.cfg = s2.cfg → s1.imgh = s2.imgh → s1.imgw = s2.imgw →
    (∀ r c, r < s1.imgh.toNat → c < s1.imgw.toNat → pixAt s1 r c = pixAt s2 r c) → DimsAccepted s1 →
    exec .extract s1 = .next t1 → exec .extract s2 = .next t2 →
    t1.msglen = t2.msglen ∧ (∀ i, i < t1.msglen.toNat → msgAt t1 i = msgAt t2 i) ∧ t1.term = t2.term ∧ t1.err = t2.err ∧
    ∀ b k j, k < subh s1 → j < subw s1 → coefAt t1 b k j = coefAt t2 b k j

/-- R237, R128: an image without a pixel 0 or 255 is embedded into without clipping. -/
def Obligations.EmbedWithoutExtremePixelsNeverClips : Prop :=
  ∀ s t : State, (∀ r c, r < s.imgh.toNat → c < s.imgw.toNat → pixAt s r c ≠ 0 ∧ pixAt s r c ≠ 255) →
    exec .embed s = .next t → t.clipcnt = 0

/-! ## Errors and the result group -/

/-- R204: every command but NOP fails with BadDim when IMGH or IMGW is 0 or too large, and changes nothing but the
result group. -/
def Obligations.BadDimAborts : Prop :=
  ∀ (i : Instr) (s : State), i ≠ .nop →
    (s.imgh.toNat = 0 ∨ s.cfg.maxh < s.imgh.toNat ∨ s.imgw.toNat = 0 ∨ s.cfg.maxw < s.imgw.toNat) →
    exec i s = .next { s with
      err := 2, errinfo0 := s.imgh.setWidth 32, errinfo1 := s.imgw.setWidth 32, term := false, clipcnt := 0 }

/-- R205: SPLICE and EMBED fail with CapacityExceeded when the bitstream is longer than LL has coefficients, recording
both sizes, whatever the message holds. -/
def Obligations.CapacityExceededAborts : Prop :=
  ∀ (i : Instr) (s : State), i = .splice ∨ i = .embed → DimsAccepted s →
    subh s * subw s < 8 * s.msglen.toNat + 8 →
    exec i s = .next { s with
      err := 3, errinfo0 := BitVec.ofNat 32 (8 * s.msglen.toNat + 8), errinfo1 := BitVec.ofNat 32 (subh s * subw s),
      term := false, clipcnt := 0 }

/-- R206: SPLICE and EMBED fail with NulInPayload when a message that fits has a zero byte, recording the least index
of one. -/
def Obligations.NulInPayloadAborts : Prop :=
  ∀ (i : Instr) (s : State) (p : Nat), i = .splice ∨ i = .embed → DimsAccepted s → MessageFits s →
    p < s.msglen.toNat → msgAt s p = 0 → (∀ q, q < p → msgAt s q ≠ 0) →
    exec i s = .next { s with
      err := 4, errinfo0 := BitVec.ofNat 32 p, errinfo1 := 0, term := false, clipcnt := 0 }

/-- R203, R209: after an aborting error nothing but the result group has changed, and TERM and CLIPCNT are 0. -/
def Obligations.AbortingErrorLeavesData : Prop :=
  ∀ (w : Word) (s t : State), execWord w s = .next t → t.err = 1 ∨ t.err = 2 ∨ t.err = 3 ∨ t.err = 4 →
    t = { s with err := t.err, errinfo0 := t.errinfo0, errinfo1 := t.errinfo1, term := false, clipcnt := 0 }

/-- R42, R30, R32: every completion, an illegal word's too, writes the whole result group: it does not depend on what
the group was before, and a field the command does not produce is written 0. -/
def Obligations.ResultGroupDescribesOneCommand : Prop :=
  (∀ (v : Word) (s : State) (e : BitVec 4) (x y n : Word) (f : Bool),
    execWord v { s with err := e, errinfo0 := x, errinfo1 := y, term := f, clipcnt := n } = execWord v s) ∧
  (∀ (v : Word) (s t : State), execWord v s = .next t →
    (t.err = 0 ∨ t.err = 5 → t.errinfo0 = 0 ∧ t.errinfo1 = 0) ∧
    (v ≠ encode .unsplice → v ≠ encode .extract → t.term = false) ∧
    (v ≠ encode .inv → v ≠ encode .embed → t.clipcnt = 0) ∧
    (t.err ≠ 0 → t.err ≠ 5 → t.term = false ∧ t.clipcnt = 0))

/-- R157: after an UNSPLICE or EXTRACT that was not aborted, ERR is NoPayloadFound exactly when the message is empty or
no terminator was found, and 0 exactly when TERM is set and MSGLEN is at least 1. -/
def Obligations.NoPayloadFoundCondition : Prop :=
  ∀ (i : Instr) (s t : State), i = .unsplice ∨ i = .extract → DimsAccepted s → exec i s = .next t →
    (t.err = 0 ↔ t.term = true ∧ 1 ≤ t.msglen.toNat) ∧ (t.err = 5 ↔ t.msglen = 0 ∨ t.term = false)

/-- R21 to R23, R26, R33, R36 to R38, R72: which data each command may write. No command writes PEND (the engine step
empties it, R72) or ACCERR (R33), nor the model's own fields: `cfg`, `epoch`, `dr` and `script` are its choice of form
(log entries 1, 2, 3 and 4). -/
def Obligations.CommandsWriteOnlyTheirData : Prop :=
  ∀ (i : Instr) (s t : State), exec i s = .next t →
    t.imgh = s.imgh ∧ t.imgw = s.imgw ∧ t.pend = s.pend ∧ t.accerr = s.accerr ∧ t.cfg = s.cfg ∧ t.epoch = s.epoch ∧
    t.dr = s.dr ∧ t.script = s.script ∧
    (i ≠ .unsplice → i ≠ .extract → t.msglen = s.msglen ∧ t.msg = s.msg) ∧
    (i ≠ .inv → i ≠ .embed → t.pix = s.pix) ∧
    (i ≠ .fwd → i ≠ .embed → i ≠ .extract → t.lh = s.lh ∧ t.hl = s.hl ∧ t.hh = s.hh) ∧
    (i ≠ .fwd → i ≠ .splice → i ≠ .embed → i ≠ .extract → t.ll = s.ll)

/-- R23, R152: a MSGLEN beyond MSGN - 1 always fails the capacity check; where MSGN is 0, every MSGLEN does. -/
def Obligations.OversizedMessageNeverFits : Prop :=
  ∀ s : State, DimsAccepted s → msgn s.cfg ≤ s.msglen.toNat → subh s * subw s < 8 * s.msglen.toNat + 8

/-- R140: with accepted dimensions every cell a command names exists. -/
def Obligations.AcceptedDimensionsFit : Prop :=
  ∀ s : State, DimsAccepted s → padh s ≤ s.cfg.maxh ∧ padw s ≤ s.cfg.maxw ∧ subh s ≤ s.cfg.maxh / 2 ∧
    subw s ≤ s.cfg.maxw / 2 ∧ 1 ≤ subh s * subw s ∧ subh s * subw s ≤ s.cfg.maxh / 2 * (s.cfg.maxw / 2)

/-! ## Reset and the machine as a whole -/

/-- R40: what every register and view reads right after reset, and that every command but NOP then fails. That the
memories list nothing, so that each cell holds a free value, is the model's form of an unspecified value (log entry
2). -/
def Obligations.ResetLeavesRegistersZero : Prop :=
  State.reset.pend = none ∧ statusWord State.reset = 0 ∧
  (∀ r, r ≠ .bitlen → readReg State.reset r = 0) ∧ readReg State.reset .bitlen = 8 ∧
  (∀ a, memFind State.reset.pix a = none ∧ memFind State.reset.msg a = none ∧
    ∀ b, memFind (bandMem State.reset b) a = none) ∧
  (∀ i, i ≠ .nop → exec i State.reset = .next { State.reset with err := 2 })

/-- R230, R232: the reset input, at any time: every register 0, a pending command abandoned, every memory cell
unspecified, whatever was written (a new epoch of free values, log entry 2); the configuration and the host stay. -/
def Obligations.ResetEventAbandonsEverything : Prop :=
  ∀ (s : State) (rest : List HostEvent), s.script = .reset :: rest →
    step s = .next { s with
      imgh := 0, imgw := 0, msglen := 0, pend := none, err := 0, term := false, clipcnt := 0, errinfo0 := 0,
      errinfo1 := 0, accerr := false, pix := [], ll := [], lh := [], hl := [], hh := [], msg := [],
      epoch := s.epoch + 1, script := rest }

/-- The invariant holds right after reset. -/
def Obligations.InvariantHoldsAtReset : Prop := StateInv State.reset

/-- Every step keeps the invariant: the memories stay in canonical form, list only cells that exist and coefficients
that fit CW bits, and the result group stays coherent. -/
def Obligations.EveryStepKeepsTheInvariant : Prop :=
  ∀ s t : State, StateInv s → step s = .next t → StateInv t
end

