-- ==== Sys2Proof/Laws/Lifting.lean ====
section
/-! SUPPORT. The laws of the lifting arithmetic in the spelling arithmetic procedures read: floor division and
remainder of the integers, and the transforms one cell at a time. -/

namespace Sys2Proof.Machine

theorem fdiv2_eq (x : Int) : fdiv2 x = x / 2 := by
  rw [fdiv2, Int.fdiv_eq_ediv_of_nonneg _ (by decide)]

theorem mod2_eq (x : Int) : mod2 x = x % 2 := by
  rw [mod2, fdiv2_eq]
  omega

/-- R111, in the words of the rule: the unique integer q with 2q ≤ x ≤ 2q + 1. -/
theorem fdiv2_unique {x q : Int} : fdiv2 x = q ↔ 2 * q ≤ x ∧ x ≤ 2 * q + 1 := by
  rw [fdiv2_eq]
  omega

theorem fwd2d_ll (h w : Nat) (P : Mat) (k j : Nat) : (fwd2d h w P).ll k j =
    fdiv2 (fdiv2 (pad h w P (2 * k) (2 * j) + pad h w P (2 * k) (2 * j + 1)) +
      fdiv2 (pad h w P (2 * k + 1) (2 * j) + pad h w P (2 * k + 1) (2 * j + 1))) := rfl

theorem fwd2d_lh (h w : Nat) (P : Mat) (k j : Nat) : (fwd2d h w P).lh k j =
    fdiv2 (pad h w P (2 * k) (2 * j) + pad h w P (2 * k) (2 * j + 1)) -
      fdiv2 (pad h w P (2 * k + 1) (2 * j) + pad h w P (2 * k + 1) (2 * j + 1)) := rfl

theorem fwd2d_hl (h w : Nat) (P : Mat) (k j : Nat) : (fwd2d h w P).hl k j =
    fdiv2 (pad h w P (2 * k) (2 * j) - pad h w P (2 * k) (2 * j + 1) +
      (pad h w P (2 * k + 1) (2 * j) - pad h w P (2 * k + 1) (2 * j + 1))) := rfl

theorem fwd2d_hh (h w : Nat) (P : Mat) (k j : Nat) : (fwd2d h w P).hh k j =
    pad h w P (2 * k) (2 * j) - pad h w P (2 * k) (2 * j + 1) -
      (pad h w P (2 * k + 1) (2 * j) - pad h w P (2 * k + 1) (2 * j + 1)) := rfl

theorem odd_div (k : Nat) : (2 * k + 1) / 2 = k := by omega
theorem odd_mod (k : Nat) : (2 * k + 1) % 2 = 1 := by omega

/-- Every row or column index is the even or the odd one of its pair. -/
theorem pair_index (r : Nat) : r = 2 * (r / 2) ∨ r = 2 * (r / 2) + 1 := by omega

/-- The raw reconstruction at the even row and even column of a block. -/
theorem inv2dRaw_ee (X : Subbands) (k j : Nat) : inv2dRaw X (2 * k) (2 * j) =
    X.ll k j + fdiv2 (X.lh k j + 1) + fdiv2 (X.hl k j + fdiv2 (X.hh k j + 1) + 1) := by
  simp [inv2dRaw, invCols, invRows, unlift]

theorem inv2dRaw_eo (X : Subbands) (k j : Nat) : inv2dRaw X (2 * k) (2 * j + 1) =
    X.ll k j + fdiv2 (X.lh k j + 1) - fdiv2 (X.hl k j + fdiv2 (X.hh k j + 1)) := by
  simp [inv2dRaw, invCols, invRows, unlift, odd_div, odd_mod]

theorem inv2dRaw_oe (X : Subbands) (k j : Nat) : inv2dRaw X (2 * k + 1) (2 * j) =
    X.ll k j - fdiv2 (X.lh k j) + fdiv2 (X.hl k j - fdiv2 (X.hh k j) + 1) := by
  simp [inv2dRaw, invCols, invRows, unlift, odd_div, odd_mod]

theorem inv2dRaw_oo (X : Subbands) (k j : Nat) : inv2dRaw X (2 * k + 1) (2 * j + 1) =
    X.ll k j - fdiv2 (X.lh k j) - fdiv2 (X.hl k j - fdiv2 (X.hh k j)) := by
  simp [inv2dRaw, invCols, invRows, unlift, odd_div, odd_mod]

/-- The clipped value lies in [0, 255]. -/
theorem clip_range (v : Int) : 0 ≤ clip v ∧ clip v ≤ 255 := by
  unfold clip
  split
  · omega
  · split <;> omega

theorem clip_of_inRange {v : Int} (h : outOfRange v = false) : clip v = v := by
  simp only [outOfRange, decide_eq_false_iff_not] at h
  unfold clip
  split
  · omega
  · split <;> omega

/-- A clipped value survives the cast to a pixel. -/
theorem toNat_ofInt_clip (v : Int) : ((BitVec.ofInt 8 (clip v)).toNat : Int) = clip v := by
  obtain ⟨h0, h1⟩ := clip_range v
  rw [BitVec.toNat_ofInt]
  omega

/-- The clip count is the number of the cells outside [0, 255], row by row. -/
theorem countClipped_le (h w : Nat) (R : Mat) : countClipped h w R ≤ h * w := by
  rw [countClipped]
  have : ∀ l : List Nat, (l.map fun r => (List.range w).countP fun c => outOfRange (R r c)).sum ≤ l.length * w := by
    intro l
    induction l with
    | nil => simp
    | cons r l ih =>
      have := List.countP_le_length (p := fun c => outOfRange (R r c)) (l := List.range w)
      rw [List.length_range] at this
      rw [List.map_cons, List.sum_cons, List.length_cons, Nat.succ_mul]
      omega
  simpa using this (List.range h)

/-- Nothing is clipped exactly when every cell is in range. -/
theorem countClipped_eq_zero {h w : Nat} {R : Mat} :
    countClipped h w R = 0 ↔ ∀ r c, r < h → c < w → outOfRange (R r c) = false := by
  simp only [countClipped, List.sum_eq_zero_iff_forall_eq_nat, List.mem_map, List.mem_range]
  constructor
  · intro hz r c hr hc
    have := hz _ ⟨r, hr, rfl⟩
    rw [List.countP_eq_zero] at this
    simpa using this c (List.mem_range.2 hc)
  · rintro hz _ ⟨r, hr, rfl⟩
    rw [List.countP_eq_zero]
    intro c hc
    simp [hz r c hr (List.mem_range.1 hc)]

/-- Matrices that agree have the same clip count. -/
theorem countClipped_congr {h w : Nat} {f g : Mat} (he : ∀ r c, r < h → c < w → f r c = g r c) :
    countClipped h w f = countClipped h w g := by
  simp only [countClipped]
  congr 1
  refine List.map_congr_left fun r hr => List.countP_congr fun c hc => ?_
  rw [he r c (List.mem_range.1 hr) (List.mem_range.1 hc)]

/-- The number of positions of a row with a property, as the size of a set. -/
theorem countP_range_eq_card (n : Nat) (p : Nat → Bool) :
    (List.range n).countP p = ((Finset.range n).filter fun c => p c = true).card := by
  rw [Finset.card_filter]
  induction n with
  | zero => rfl
  | succ n ih =>
    rw [List.range_succ, List.countP_append, Finset.sum_range_succ, ih]
    simp [List.countP_cons]

/-- R120: the clip count is the number of cells outside [0, 255]. -/
theorem countClipped_eq_card (h w : Nat) (R : Mat) : countClipped h w R =
    ((Finset.range h ×ˢ Finset.range w).filter fun x => R x.1 x.2 < 0 ∨ 255 < R x.1 x.2).card := by
  rw [Finset.card_filter, Finset.sum_product, countClipped]
  induction h with
  | zero => rfl
  | succ n ih =>
    rw [List.range_succ, List.map_append, List.sum_append, Finset.sum_range_succ, ih]
    rw [List.map_singleton, List.sum_singleton, countP_range_eq_card, Finset.card_filter]
    simp only [outOfRange, decide_eq_true_eq]

/-- A raw cell depends on the four coefficients of its block alone. -/
theorem inv2dRaw_congr {X Y : Subbands} {r c : Nat} (h : X.ll (r / 2) (c / 2) = Y.ll (r / 2) (c / 2) ∧
    X.lh (r / 2) (c / 2) = Y.lh (r / 2) (c / 2) ∧ X.hl (r / 2) (c / 2) = Y.hl (r / 2) (c / 2) ∧
    X.hh (r / 2) (c / 2) = Y.hh (r / 2) (c / 2)) : inv2dRaw X r c = inv2dRaw Y r c := by
  simp only [inv2dRaw, invCols, invRows, h]

end Sys2Proof.Machine
end

