-- ==== Sys2Proof/Laws/Bitstream.lean ====
section
/-! SUPPORT. The laws of least-significant bits, of a message's bits, and of the group decoder one group at a time. -/

namespace Sys2Proof.Machine

theorem setlsb_eq (c : Int) (b : Bool) : setlsb c b = c - c % 2 + (if b then 1 else 0) := by
  rw [setlsb, mod2_eq]

theorem lsb_eq (c : Int) : lsb c = decide (c % 2 = 1) := by
  rw [lsb, mod2_eq]

/-- The bit that was put in is the bit that is read. -/
theorem lsb_setlsb (c : Int) (b : Bool) : lsb (setlsb c b) = b := by
  rw [lsb_eq, setlsb_eq]
  cases b
  · simp
  · simp
    omega

/-- Replacing bit 0 moves a coefficient by at most one, and stays in the cell. -/
theorem setlsb_range {cw : Nat} (hcw : 1 < cw) {c : Int} (b : Bool) (h0 : -(2 ^ (cw - 1) : Int) ≤ c)
    (h1 : c ≤ (2 ^ (cw - 1) : Int) - 1) :
    -(2 ^ (cw - 1) : Int) ≤ setlsb c b ∧ setlsb c b ≤ (2 ^ (cw - 1) : Int) - 1 := by
  obtain ⟨n, rfl⟩ : ∃ n, cw = n + 2 := ⟨cw - 2, by omega⟩
  rw [show n + 2 - 1 = n + 1 from rfl, pow_succ] at *
  rw [setlsb_eq]
  cases b <;> simp <;> omega

@[simp] theorem length_byteBits (v : Byte) : (byteBits v).length = 8 := by
  simp [byteBits]

/-- R130: element t of a byte's bits. -/
theorem getElem_byteBits (v : Byte) (t : Nat) (ht : t < (byteBits v).length) :
    (byteBits v)[t] = decide (v.toNat / 2 ^ (7 - t) % 2 = 1) := by
  simp [byteBits]

@[simp] theorem length_flatMap_byteBits (m : List Byte) : (m.flatMap byteBits).length = 8 * m.length := by
  induction m with
  | nil => rfl
  | cons v m ih =>
    rw [List.flatMap_cons, List.length_append, ih, length_byteBits, List.length_cons]
    omega

@[simp] theorem length_bitstream (m : List Byte) : (bitstream m).length = 8 * m.length + 8 := by
  rw [bitstream, List.length_append, length_flatMap_byteBits, List.length_replicate]

theorem bitstream_nil : bitstream [] = List.replicate 8 false := rfl

theorem bitstream_cons (v : Byte) (m : List Byte) : bitstream (v :: m) = byteBits v ++ bitstream m := by
  simp [bitstream]

/-- The bits of a byte have the byte's value. -/
theorem groupValue_byteBits (v : Byte) : groupValue (byteBits v) = v.toNat := by
  revert v
  decide +kernel

theorem groupValue_lt (b0 b1 b2 b3 b4 b5 b6 b7 : Bool) :
    groupValue [b0, b1, b2, b3, b4, b5, b6, b7] < 256 := by
  revert b0 b1 b2 b3 b4 b5 b6 b7
  decide

/-- One group of the decoder: it stops at an all-zero group, and otherwise delivers the group's value. -/
theorem decodeGroups_group (g rest : List Bool) (hg : g.length = 8) :
    decodeGroups (g ++ rest) = if groupValue g = 0 then ([], true)
      else (BitVec.ofNat 8 (groupValue g) :: (decodeGroups rest).1, (decodeGroups rest).2) := by
  match g, hg with
  | [b0, b1, b2, b3, b4, b5, b6, b7], _ => simp only [List.cons_append, List.nil_append, decodeGroups]

/-- Fewer than eight bits hold no group. -/
theorem decodeGroups_short (l : List Bool) (h : l.length < 8) : decodeGroups l = ([], false) := by
  match l, h with
  | [], _ => rfl
  | [_], _ => rfl
  | [_, _], _ => rfl
  | [_, _, _], _ => rfl
  | [_, _, _, _], _ => rfl
  | [_, _, _, _, _], _ => rfl
  | [_, _, _, _, _, _], _ => rfl
  | [_, _, _, _, _, _, _], _ => rfl

/-- Induction over the groups of a bit sequence. -/
theorem groups_induction {p : List Bool → Prop} (short : ∀ l, l.length < 8 → p l)
    (group : ∀ g rest, g.length = 8 → p rest → p (g ++ rest)) (l : List Bool) : p l := by
  obtain ⟨n, hn⟩ : ∃ n, l.length ≤ n := ⟨_, Nat.le_refl _⟩
  induction n using Nat.strongRecOn generalizing l with
  | ind n ih =>
    by_cases h : l.length < 8
    · exact short l h
    · rw [← List.take_append_drop 8 l]
      refine group _ _ (by rw [List.length_take]; omega) (ih (n - 8) (by omega) _ ?_)
      rw [List.length_drop]
      omega

/-- The decoder delivers at most one byte for each complete group. -/
theorem length_decodeGroups_le (l : List Bool) : (decodeGroups l).1.length ≤ l.length / 8 := by
  refine groups_induction (p := fun l => (decodeGroups l).1.length ≤ l.length / 8) (fun l h => ?_)
    (fun g rest hg ih => ?_) l
  · rw [decodeGroups_short l h]
    exact Nat.zero_le _
  · rw [decodeGroups_group g rest hg, List.length_append, hg]
    split
    · exact Nat.zero_le _
    · rw [List.length_cons]
      omega

@[simp] theorem length_llBits (n w : Nat) (A : Mat) : (llBits n w A).length = n := by
  simp [llBits]

theorem getElem_llBits (n w : Nat) (A : Mat) (i : Nat) (hi : i < (llBits n w A).length) :
    (llBits n w A)[i] = lsb (A (i / w) (i % w)) := by
  simp [llBits]

theorem llBits_congr {n w : Nat} {A B : Mat} (h : ∀ i, i < n → A (i / w) (i % w) = B (i / w) (i % w)) :
    llBits n w A = llBits n w B := by
  refine List.map_congr_left fun i hi => ?_
  rw [h i (List.mem_range.1 hi)]

/-- Bit n of a coefficient cell of more than n bits. -/
theorem getLsbD_ofInt {cw : Nat} (n : Nat) (h : n < cw) (c : Int) :
    (BitVec.ofInt cw c).getLsbD n = decide (c / 2 ^ n % 2 = 1) := by
  rw [BitVec.getLsbD, BitVec.toNat_ofInt, Nat.testBit_eq_decide_div_mod_eq]
  obtain ⟨m, rfl⟩ : ∃ m, cw = n + 1 + m := ⟨cw - n - 1, by omega⟩
  have h0 : 0 ≤ c % ((2 ^ (n + 1 + m) : Nat) : Int) := Int.emod_nonneg _ (by positivity)
  have e : c % ((2 ^ (n + 1 + m) : Nat) : Int) / 2 ^ n = c / 2 ^ n - 2 * (2 ^ m * (c / 2 ^ (n + 1 + m))) := by
    have : c % ((2 ^ (n + 1 + m) : Nat) : Int) = c + (-(2 * (2 ^ m * (c / 2 ^ (n + 1 + m))))) * 2 ^ n := by
      rw [Int.emod_def]
      push_cast
      ring
    rw [this, Int.add_mul_ediv_right _ _ (by positivity)]
    ring
  congr 1
  apply propext
  have : (((c % ((2 ^ (n + 1 + m) : Nat) : Int)).toNat / 2 ^ n : Nat) : Int) =
      c / 2 ^ n - 2 * (2 ^ m * (c / 2 ^ (n + 1 + m))) := by
    rw [← e]
    push_cast
    push_cast at h0
    rw [Int.toNat_of_nonneg h0]
  omega

end Sys2Proof.Machine
end

