-- ==== Sys2Proof/Laws/Memory.lean ====
section
/-! SUPPORT. The laws of one memory: what a read gives after a write or a store, that every operation keeps the
canonical form, and that memories in that form which list the same cells are equal. -/

namespace Sys2Proof.Machine

variable {α : Type}

/-- Reading after a write: the written cell, and every other cell as before. -/
theorem memFind_memWrite (m : Memory α) (a : Nat) (v : α) (b : Nat) :
    memFind (memWrite m a v) b = if b = a then some v else memFind m b := by
  induction m with
  | nil => simp [memWrite, memFind]
  | cons x m ih =>
    obtain ⟨k, w⟩ := x
    by_cases h1 : a < k
    · simp [memWrite, h1, memFind]
    · by_cases h2 : a = k
      · subst h2
        by_cases hb : b = a <;> simp [memWrite, memFind, hb]
      · by_cases hb : b = k
        · subst hb
          simp [memWrite, h1, h2, memFind, Ne.symm h2]
        · simp [memWrite, h1, h2, memFind, hb, ih]

/-- A cell of a written memory is the written one or was there before. -/
theorem mem_memWrite {m : Memory α} {a : Nat} {v : α} {x : Nat × α} (h : x ∈ memWrite m a v) :
    x = (a, v) ∨ x ∈ m := by
  induction m with
  | nil => simpa [memWrite] using h
  | cons y m ih =>
    obtain ⟨k, w⟩ := y
    simp only [memWrite] at h
    split at h
    · simpa using h
    · split at h
      · rcases List.mem_cons.1 h with h | h
        · exact .inl h
        · exact .inr (List.mem_cons_of_mem _ h)
      · rcases List.mem_cons.1 h with h | h
        · exact .inr (h ▸ List.mem_cons_self)
        · exact (ih h).imp id (List.mem_cons_of_mem _)

/-- A write keeps the canonical form. -/
theorem wf_memWrite {m : Memory α} (a : Nat) (v : α) (h : m.wf) : (memWrite m a v).wf := by
  induction m with
  | nil => exact List.pairwise_singleton _ _
  | cons y m ih =>
    obtain ⟨k, w⟩ := y
    obtain ⟨hk, hm⟩ := List.pairwise_cons.1 h
    simp only [memWrite]
    split
    · rename_i hlt
      refine List.pairwise_cons.2 ⟨fun x hx => ?_, h⟩
      rcases List.mem_cons.1 hx with rfl | hx
      · exact hlt
      · exact Nat.lt_trans hlt (hk x hx)
    · split
      · rename_i heq
        subst heq
        exact List.pairwise_cons.2 ⟨hk, hm⟩
      · rename_i h1 h2
        refine List.pairwise_cons.2 ⟨fun x hx => ?_, ih hm⟩
        rcases mem_memWrite hx with rfl | hx
        · show k < a
          omega
        · exact hk x hx

/-- A store keeps the canonical form. -/
theorem wf_memStore {m : Memory α} (cells : List (Nat × α)) (h : m.wf) : (memStore m cells).wf := by
  induction cells generalizing m with
  | nil => exact h
  | cons c cells ih => exact ih (wf_memWrite _ _ h)

/-- A cell of a stored memory is one of those stored or was there before. -/
theorem mem_memStore {m : Memory α} {cells : List (Nat × α)} {x : Nat × α} (h : x ∈ memStore m cells) :
    x ∈ cells ∨ x ∈ m := by
  induction cells generalizing m with
  | nil => exact .inr h
  | cons c cells ih =>
    rcases ih h with h | h
    · exact .inl (List.mem_cons_of_mem _ h)
    · rcases mem_memWrite h with rfl | h
      · exact .inl List.mem_cons_self
      · exact .inr h

/-- A listed cell is what the memory reads as at its key. -/
theorem memFind_of_mem {m : Memory α} (h : m.wf) {a : Nat} {v : α} (hm : (a, v) ∈ m) : memFind m a = some v := by
  induction m with
  | nil => cases hm
  | cons y m ih =>
    obtain ⟨k, w⟩ := y
    obtain ⟨hk, hw⟩ := List.pairwise_cons.1 h
    rcases List.mem_cons.1 hm with heq | hm
    · cases heq
      simp [memFind]
    · have : k < a := hk _ hm
      simp [memFind, show ¬a = k by omega, ih hw hm]

/-- What a memory reads as at a key is listed. -/
theorem mem_of_memFind {m : Memory α} {a : Nat} {v : α} (h : memFind m a = some v) : (a, v) ∈ m := by
  induction m with
  | nil => cases h
  | cons y m ih =>
    obtain ⟨k, w⟩ := y
    simp only [memFind] at h
    split at h
    · rename_i heq
      cases h
      subst heq
      exact List.mem_cons_self
    · exact List.mem_cons_of_mem _ (ih h)

/-- A store whose cells do not include the key leaves it as it was. -/
theorem memFind_memStore_of_not_mem {m : Memory α} (cells : List (Nat × α)) (a : Nat)
    (hn : ∀ v, (a, v) ∉ cells) : memFind (memStore m cells) a = memFind m a := by
  induction cells generalizing m with
  | nil => rfl
  | cons c cells ih =>
    have hc : a ≠ c.1 := fun e => hn c.2 (by rw [e]; exact List.mem_cons_self)
    rw [memStore, List.foldl_cons]
    rw [show List.foldl (fun m c => memWrite m c.1 c.2) (memWrite m c.1 c.2) cells
      = memStore (memWrite m c.1 c.2) cells from rfl]
    rw [ih fun v hv => hn v (List.mem_cons_of_mem _ hv), memFind_memWrite, if_neg hc]

/-- A store of cells with distinct keys: each of them reads as stored. -/
theorem memFind_memStore_of_mem {m : Memory α} (cells : List (Nat × α))
    (hd : cells.Pairwise fun x y => x.1 ≠ y.1) {a : Nat} {v : α} (hm : (a, v) ∈ cells) :
    memFind (memStore m cells) a = some v := by
  induction cells generalizing m with
  | nil => cases hm
  | cons c cells ih =>
    obtain ⟨hc, hd⟩ := List.pairwise_cons.1 hd
    rcases List.mem_cons.1 hm with heq | hm
    · subst heq
      have := memFind_memStore_of_not_mem (m := memWrite m a v) cells a fun w hw => hc _ hw rfl
      rw [memStore, List.foldl_cons]
      rw [memStore] at this
      rw [this, memFind_memWrite, if_pos rfl]
    · exact ih hd hm

/-- Memories in canonical form that list the same cells are equal. -/
theorem memory_ext {m n : Memory α} (hm : m.wf) (hn : n.wf) (h : ∀ a, memFind m a = memFind n a) : m = n := by
  have hsub : ∀ {p q : Memory α}, q.wf → (∀ a, memFind p a = memFind q a) → p.wf → ∀ x, x ∈ p → x ∈ q := by
    intro p q _ he hp x hx
    exact mem_of_memFind ((he x.1).symm.trans (memFind_of_mem hp hx))
  have irr : ∀ {p : Memory α}, p.wf → p.Nodup := fun hp =>
    hp.imp fun {x y} hlt heq => absurd hlt (by simp [heq])
  have hperm : m.Perm n := (List.perm_ext_iff_of_nodup (irr hm) (irr hn)).2 fun x =>
    ⟨hsub hn h hm x, hsub hm (fun a => (h a).symm) hn x⟩
  refine hperm.eq_of_pairwise ?_ hm hn
  intro x y _ _ h1 h2
  omega

/-- The cells of a region: a key belongs to it when its row and column do. -/
theorem mem_regionCells {h w : Nat} {f : Nat → Nat → α} {x : Nat × α} :
    x ∈ regionCells h w f ↔ ∃ r c, r < h ∧ c < w ∧ x = (cellKey r c, f r c) := by
  simp only [regionCells, List.mem_flatMap, List.mem_map, List.mem_range]
  constructor
  · rintro ⟨r, hr, c, hc, rfl⟩
    exact ⟨r, c, hr, hc, rfl⟩
  · rintro ⟨r, c, hr, hc, rfl⟩
    exact ⟨r, hr, c, hc, rfl⟩

/-- Keys determine row and column, as the column field is ten bits wide. -/
theorem cellKey_inj {r c r' c' : Nat} (hc : c < 1024) (hc' : c' < 1024) :
    cellKey r c = cellKey r' c' ↔ r = r' ∧ c = c' := by
  simp only [cellKey]
  omega

theorem cellKey_div {r c : Nat} (hc : c < 1024) : cellKey r c / 1024 = r := by
  simp only [cellKey]
  omega

theorem cellKey_mod {r c : Nat} (hc : c < 1024) : cellKey r c % 1024 = c := by
  simp only [cellKey]
  omega

/-- The cells of a region have distinct keys. -/
theorem regionCells_distinct {h w : Nat} (hw : w ≤ 1024) (f : Nat → Nat → α) :
    (regionCells h w f).Pairwise fun x y => x.1 ≠ y.1 := by
  rw [regionCells, List.pairwise_flatMap]
  refine ⟨fun r _ => ?_, ?_⟩
  · rw [List.pairwise_map]
    refine List.pairwise_lt_range.imp_of_mem ?_
    intro c c' hc hc' hlt he
    rw [List.mem_range] at hc hc'
    rw [cellKey_inj (by omega) (by omega)] at he
    omega
  · refine List.pairwise_lt_range.imp_of_mem ?_
    intro r r' _ _ hlt x hx y hy he
    simp only [List.mem_map, List.mem_range] at hx hy
    obtain ⟨c, hc, rfl⟩ := hx
    obtain ⟨c', hc', rfl⟩ := hy
    rw [cellKey_inj (by omega) (by omega)] at he
    omega

/-- Reading after a region was stored: a cell of the region reads as stored, every other cell as before. -/
theorem memFind_store_region (m : Memory α) {h w : Nat} (hw : w ≤ 1024) (f : Nat → Nat → α)
    (r c : Nat) (hc : c < 1024) :
    memFind (memStore m (regionCells h w f)) (cellKey r c)
      = if r < h ∧ c < w then some (f r c) else memFind m (cellKey r c) := by
  split
  · rename_i hin
    exact memFind_memStore_of_mem _ (regionCells_distinct hw f)
      (mem_regionCells.2 ⟨r, c, hin.1, hin.2, rfl⟩)
  · rename_i hout
    refine memFind_memStore_of_not_mem _ _ fun v hv => hout ?_
    obtain ⟨r', c', hr, hc', he⟩ := mem_regionCells.1 hv
    have := (cellKey_inj hc (by omega)).1 (congrArg Prod.fst he)
    omega

/-- Regions with equal contents have equal cells. -/
theorem regionCells_congr {h w : Nat} {f g : Nat → Nat → α} (he : ∀ r c, r < h → c < w → f r c = g r c) :
    regionCells h w f = regionCells h w g := by
  simp only [regionCells]
  refine List.flatMap_congr fun r hr => List.map_congr_left fun c hc => ?_
  rw [he r c (List.mem_range.1 hr) (List.mem_range.1 hc)]

/-- A region stored inside `rows` × `cols` keeps every key there. -/
theorem keysWithin_store_region {h w rows cols : Nat} {m : Memory α} {f : Nat → Nat → α} (hm : keysWithin rows cols m)
    (hh : h ≤ rows) (hw : w ≤ cols) (hc : w ≤ 1024) : keysWithin rows cols (memStore m (regionCells h w f)) := by
  intro x hx
  rcases mem_memStore hx with hx | hx
  · obtain ⟨r, c, h1, h2, rfl⟩ := mem_regionCells.1 hx
    simp only [cellKey_div (show c < 1024 by omega), cellKey_mod (show c < 1024 by omega)]
    omega
  · exact hm x hx

/-- The memories of the reset state have the canonical form. -/
theorem reset_memories_wf : State.reset.pix.wf ∧ State.reset.msg.wf ∧ ∀ b, (bandMem State.reset b).wf :=
  ⟨List.Pairwise.nil, List.Pairwise.nil, fun b => by cases b <;> exact List.Pairwise.nil⟩

end Sys2Proof.Machine
end

