-- ==== Sys2Proof/Laws/State.lean ====
section
/-! SUPPORT. One lemma per field per update of the state, each true by rfl and tagged for simp, so that no later proof
unfolds a record update. -/

namespace Sys2Proof.Machine

/-! R143: `finish` writes the result group. -/

@[simp] theorem finish_imgh (e : Option CmdError) (t : Bool) (n : Nat) (s : State) :
    (finish e t n s).imgh = s.imgh := rfl
@[simp] theorem finish_imgw (e : Option CmdError) (t : Bool) (n : Nat) (s : State) :
    (finish e t n s).imgw = s.imgw := rfl
@[simp] theorem finish_msglen (e : Option CmdError) (t : Bool) (n : Nat) (s : State) :
    (finish e t n s).msglen = s.msglen := rfl
@[simp] theorem finish_pend (e : Option CmdError) (t : Bool) (n : Nat) (s : State) :
    (finish e t n s).pend = s.pend := rfl
@[simp] theorem finish_err (e : Option CmdError) (t : Bool) (n : Nat) (s : State) :
    (finish e t n s).err = resultCode e := rfl
@[simp] theorem finish_term (e : Option CmdError) (t : Bool) (n : Nat) (s : State) : (finish e t n s).term = t := rfl
@[simp] theorem finish_clipcnt (e : Option CmdError) (t : Bool) (n : Nat) (s : State) :
    (finish e t n s).clipcnt = BitVec.ofNat 32 n := rfl
@[simp] theorem finish_errinfo0 (e : Option CmdError) (t : Bool) (n : Nat) (s : State) :
    (finish e t n s).errinfo0 = 0 := rfl
@[simp] theorem finish_errinfo1 (e : Option CmdError) (t : Bool) (n : Nat) (s : State) :
    (finish e t n s).errinfo1 = 0 := rfl
@[simp] theorem finish_accerr (e : Option CmdError) (t : Bool) (n : Nat) (s : State) :
    (finish e t n s).accerr = s.accerr := rfl
@[simp] theorem finish_pix (e : Option CmdError) (t : Bool) (n : Nat) (s : State) :
    (finish e t n s).pix = s.pix := rfl
@[simp] theorem finish_ll (e : Option CmdError) (t : Bool) (n : Nat) (s : State) : (finish e t n s).ll = s.ll := rfl
@[simp] theorem finish_lh (e : Option CmdError) (t : Bool) (n : Nat) (s : State) : (finish e t n s).lh = s.lh := rfl
@[simp] theorem finish_hl (e : Option CmdError) (t : Bool) (n : Nat) (s : State) : (finish e t n s).hl = s.hl := rfl
@[simp] theorem finish_hh (e : Option CmdError) (t : Bool) (n : Nat) (s : State) : (finish e t n s).hh = s.hh := rfl
@[simp] theorem finish_msg (e : Option CmdError) (t : Bool) (n : Nat) (s : State) :
    (finish e t n s).msg = s.msg := rfl
@[simp] theorem finish_cfg (e : Option CmdError) (t : Bool) (n : Nat) (s : State) :
    (finish e t n s).cfg = s.cfg := rfl
@[simp] theorem finish_epoch (e : Option CmdError) (t : Bool) (n : Nat) (s : State) :
    (finish e t n s).epoch = s.epoch := rfl
@[simp] theorem finish_dr (e : Option CmdError) (t : Bool) (n : Nat) (s : State) : (finish e t n s).dr = s.dr := rfl
@[simp] theorem finish_script (e : Option CmdError) (t : Bool) (n : Nat) (s : State) :
    (finish e t n s).script = s.script := rfl

/-! R203: `fail` writes the result group. -/

@[simp] theorem fail_imgh (e : CmdError) (i0 i1 : Word) (s : State) : (fail e i0 i1 s).imgh = s.imgh := rfl
@[simp] theorem fail_imgw (e : CmdError) (i0 i1 : Word) (s : State) : (fail e i0 i1 s).imgw = s.imgw := rfl
@[simp] theorem fail_msglen (e : CmdError) (i0 i1 : Word) (s : State) : (fail e i0 i1 s).msglen = s.msglen := rfl
@[simp] theorem fail_pend (e : CmdError) (i0 i1 : Word) (s : State) : (fail e i0 i1 s).pend = s.pend := rfl
@[simp] theorem fail_err (e : CmdError) (i0 i1 : Word) (s : State) : (fail e i0 i1 s).err = errCode e := rfl
@[simp] theorem fail_term (e : CmdError) (i0 i1 : Word) (s : State) : (fail e i0 i1 s).term = false := rfl
@[simp] theorem fail_clipcnt (e : CmdError) (i0 i1 : Word) (s : State) : (fail e i0 i1 s).clipcnt = 0 := rfl
@[simp] theorem fail_errinfo0 (e : CmdError) (i0 i1 : Word) (s : State) : (fail e i0 i1 s).errinfo0 = i0 := rfl
@[simp] theorem fail_errinfo1 (e : CmdError) (i0 i1 : Word) (s : State) : (fail e i0 i1 s).errinfo1 = i1 := rfl
@[simp] theorem fail_accerr (e : CmdError) (i0 i1 : Word) (s : State) : (fail e i0 i1 s).accerr = s.accerr := rfl
@[simp] theorem fail_pix (e : CmdError) (i0 i1 : Word) (s : State) : (fail e i0 i1 s).pix = s.pix := rfl
@[simp] theorem fail_ll (e : CmdError) (i0 i1 : Word) (s : State) : (fail e i0 i1 s).ll = s.ll := rfl
@[simp] theorem fail_lh (e : CmdError) (i0 i1 : Word) (s : State) : (fail e i0 i1 s).lh = s.lh := rfl
@[simp] theorem fail_hl (e : CmdError) (i0 i1 : Word) (s : State) : (fail e i0 i1 s).hl = s.hl := rfl
@[simp] theorem fail_hh (e : CmdError) (i0 i1 : Word) (s : State) : (fail e i0 i1 s).hh = s.hh := rfl
@[simp] theorem fail_msg (e : CmdError) (i0 i1 : Word) (s : State) : (fail e i0 i1 s).msg = s.msg := rfl
@[simp] theorem fail_cfg (e : CmdError) (i0 i1 : Word) (s : State) : (fail e i0 i1 s).cfg = s.cfg := rfl
@[simp] theorem fail_epoch (e : CmdError) (i0 i1 : Word) (s : State) : (fail e i0 i1 s).epoch = s.epoch := rfl
@[simp] theorem fail_dr (e : CmdError) (i0 i1 : Word) (s : State) : (fail e i0 i1 s).dr = s.dr := rfl
@[simp] theorem fail_script (e : CmdError) (i0 i1 : Word) (s : State) : (fail e i0 i1 s).script = s.script := rfl

/-! R72: `completePending` empties PEND. -/

@[simp] theorem completePending_imgh (s : State) : (completePending s).imgh = s.imgh := rfl
@[simp] theorem completePending_imgw (s : State) : (completePending s).imgw = s.imgw := rfl
@[simp] theorem completePending_msglen (s : State) : (completePending s).msglen = s.msglen := rfl
@[simp] theorem completePending_pend (s : State) : (completePending s).pend = none := rfl
@[simp] theorem completePending_err (s : State) : (completePending s).err = s.err := rfl
@[simp] theorem completePending_term (s : State) : (completePending s).term = s.term := rfl
@[simp] theorem completePending_clipcnt (s : State) : (completePending s).clipcnt = s.clipcnt := rfl
@[simp] theorem completePending_errinfo0 (s : State) : (completePending s).errinfo0 = s.errinfo0 := rfl
@[simp] theorem completePending_errinfo1 (s : State) : (completePending s).errinfo1 = s.errinfo1 := rfl
@[simp] theorem completePending_accerr (s : State) : (completePending s).accerr = s.accerr := rfl
@[simp] theorem completePending_pix (s : State) : (completePending s).pix = s.pix := rfl
@[simp] theorem completePending_ll (s : State) : (completePending s).ll = s.ll := rfl
@[simp] theorem completePending_lh (s : State) : (completePending s).lh = s.lh := rfl
@[simp] theorem completePending_hl (s : State) : (completePending s).hl = s.hl := rfl
@[simp] theorem completePending_hh (s : State) : (completePending s).hh = s.hh := rfl
@[simp] theorem completePending_msg (s : State) : (completePending s).msg = s.msg := rfl
@[simp] theorem completePending_cfg (s : State) : (completePending s).cfg = s.cfg := rfl
@[simp] theorem completePending_epoch (s : State) : (completePending s).epoch = s.epoch := rfl
@[simp] theorem completePending_dr (s : State) : (completePending s).dr = s.dr := rfl
@[simp] theorem completePending_script (s : State) : (completePending s).script = s.script := rfl

/-! R212: `accessFault` sets ACCERR. -/

@[simp] theorem accessFault_imgh (s : State) : (accessFault s).imgh = s.imgh := rfl
@[simp] theorem accessFault_imgw (s : State) : (accessFault s).imgw = s.imgw := rfl
@[simp] theorem accessFault_msglen (s : State) : (accessFault s).msglen = s.msglen := rfl
@[simp] theorem accessFault_pend (s : State) : (accessFault s).pend = s.pend := rfl
@[simp] theorem accessFault_err (s : State) : (accessFault s).err = s.err := rfl
@[simp] theorem accessFault_term (s : State) : (accessFault s).term = s.term := rfl
@[simp] theorem accessFault_clipcnt (s : State) : (accessFault s).clipcnt = s.clipcnt := rfl
@[simp] theorem accessFault_errinfo0 (s : State) : (accessFault s).errinfo0 = s.errinfo0 := rfl
@[simp] theorem accessFault_errinfo1 (s : State) : (accessFault s).errinfo1 = s.errinfo1 := rfl
@[simp] theorem accessFault_accerr (s : State) : (accessFault s).accerr = true := rfl
@[simp] theorem accessFault_pix (s : State) : (accessFault s).pix = s.pix := rfl
@[simp] theorem accessFault_ll (s : State) : (accessFault s).ll = s.ll := rfl
@[simp] theorem accessFault_lh (s : State) : (accessFault s).lh = s.lh := rfl
@[simp] theorem accessFault_hl (s : State) : (accessFault s).hl = s.hl := rfl
@[simp] theorem accessFault_hh (s : State) : (accessFault s).hh = s.hh := rfl
@[simp] theorem accessFault_msg (s : State) : (accessFault s).msg = s.msg := rfl
@[simp] theorem accessFault_cfg (s : State) : (accessFault s).cfg = s.cfg := rfl
@[simp] theorem accessFault_epoch (s : State) : (accessFault s).epoch = s.epoch := rfl
@[simp] theorem accessFault_dr (s : State) : (accessFault s).dr = s.dr := rfl
@[simp] theorem accessFault_script (s : State) : (accessFault s).script = s.script := rfl

/-! `storePix` writes PIX. -/

@[simp] theorem storePix_imgh (s : State) (h w : Nat) (Q : Mat) : (storePix s h w Q).imgh = s.imgh := rfl
@[simp] theorem storePix_imgw (s : State) (h w : Nat) (Q : Mat) : (storePix s h w Q).imgw = s.imgw := rfl
@[simp] theorem storePix_msglen (s : State) (h w : Nat) (Q : Mat) : (storePix s h w Q).msglen = s.msglen := rfl
@[simp] theorem storePix_pend (s : State) (h w : Nat) (Q : Mat) : (storePix s h w Q).pend = s.pend := rfl
@[simp] theorem storePix_err (s : State) (h w : Nat) (Q : Mat) : (storePix s h w Q).err = s.err := rfl
@[simp] theorem storePix_term (s : State) (h w : Nat) (Q : Mat) : (storePix s h w Q).term = s.term := rfl
@[simp] theorem storePix_clipcnt (s : State) (h w : Nat) (Q : Mat) : (storePix s h w Q).clipcnt = s.clipcnt := rfl
@[simp] theorem storePix_errinfo0 (s : State) (h w : Nat) (Q : Mat) : (storePix s h w Q).errinfo0 = s.errinfo0 := rfl
@[simp] theorem storePix_errinfo1 (s : State) (h w : Nat) (Q : Mat) : (storePix s h w Q).errinfo1 = s.errinfo1 := rfl
@[simp] theorem storePix_accerr (s : State) (h w : Nat) (Q : Mat) : (storePix s h w Q).accerr = s.accerr := rfl
@[simp] theorem storePix_pix (s : State) (h w : Nat) (Q : Mat) :
    (storePix s h w Q).pix = memStore s.pix (regionCells h w fun r c => BitVec.ofInt 8 (Q r c)) := rfl
@[simp] theorem storePix_ll (s : State) (h w : Nat) (Q : Mat) : (storePix s h w Q).ll = s.ll := rfl
@[simp] theorem storePix_lh (s : State) (h w : Nat) (Q : Mat) : (storePix s h w Q).lh = s.lh := rfl
@[simp] theorem storePix_hl (s : State) (h w : Nat) (Q : Mat) : (storePix s h w Q).hl = s.hl := rfl
@[simp] theorem storePix_hh (s : State) (h w : Nat) (Q : Mat) : (storePix s h w Q).hh = s.hh := rfl
@[simp] theorem storePix_msg (s : State) (h w : Nat) (Q : Mat) : (storePix s h w Q).msg = s.msg := rfl
@[simp] theorem storePix_cfg (s : State) (h w : Nat) (Q : Mat) : (storePix s h w Q).cfg = s.cfg := rfl
@[simp] theorem storePix_epoch (s : State) (h w : Nat) (Q : Mat) : (storePix s h w Q).epoch = s.epoch := rfl
@[simp] theorem storePix_dr (s : State) (h w : Nat) (Q : Mat) : (storePix s h w Q).dr = s.dr := rfl
@[simp] theorem storePix_script (s : State) (h w : Nat) (Q : Mat) : (storePix s h w Q).script = s.script := rfl

/-! `storeSubbands` writes the four subband memories. -/

@[simp] theorem storeSubbands_imgh (s : State) (hc wc : Nat) (X : Subbands) :
    (storeSubbands s hc wc X).imgh = s.imgh := rfl
@[simp] theorem storeSubbands_imgw (s : State) (hc wc : Nat) (X : Subbands) :
    (storeSubbands s hc wc X).imgw = s.imgw := rfl
@[simp] theorem storeSubbands_msglen (s : State) (hc wc : Nat) (X : Subbands) :
    (storeSubbands s hc wc X).msglen = s.msglen := rfl
@[simp] theorem storeSubbands_pend (s : State) (hc wc : Nat) (X : Subbands) :
    (storeSubbands s hc wc X).pend = s.pend := rfl
@[simp] theorem storeSubbands_err (s : State) (hc wc : Nat) (X : Subbands) :
    (storeSubbands s hc wc X).err = s.err := rfl
@[simp] theorem storeSubbands_term (s : State) (hc wc : Nat) (X : Subbands) :
    (storeSubbands s hc wc X).term = s.term := rfl
@[simp] theorem storeSubbands_clipcnt (s : State) (hc wc : Nat) (X : Subbands) :
    (storeSubbands s hc wc X).clipcnt = s.clipcnt := rfl
@[simp] theorem storeSubbands_errinfo0 (s : State) (hc wc : Nat) (X : Subbands) :
    (storeSubbands s hc wc X).errinfo0 = s.errinfo0 := rfl
@[simp] theorem storeSubbands_errinfo1 (s : State) (hc wc : Nat) (X : Subbands) :
    (storeSubbands s hc wc X).errinfo1 = s.errinfo1 := rfl
@[simp] theorem storeSubbands_accerr (s : State) (hc wc : Nat) (X : Subbands) :
    (storeSubbands s hc wc X).accerr = s.accerr := rfl
@[simp] theorem storeSubbands_pix (s : State) (hc wc : Nat) (X : Subbands) :
    (storeSubbands s hc wc X).pix = s.pix := rfl
@[simp] theorem storeSubbands_ll (s : State) (hc wc : Nat) (X : Subbands) :
    (storeSubbands s hc wc X).ll = memStore s.ll (regionCells hc wc X.ll) := rfl
@[simp] theorem storeSubbands_lh (s : State) (hc wc : Nat) (X : Subbands) :
    (storeSubbands s hc wc X).lh = memStore s.lh (regionCells hc wc X.lh) := rfl
@[simp] theorem storeSubbands_hl (s : State) (hc wc : Nat) (X : Subbands) :
    (storeSubbands s hc wc X).hl = memStore s.hl (regionCells hc wc X.hl) := rfl
@[simp] theorem storeSubbands_hh (s : State) (hc wc : Nat) (X : Subbands) :
    (storeSubbands s hc wc X).hh = memStore s.hh (regionCells hc wc X.hh) := rfl
@[simp] theorem storeSubbands_msg (s : State) (hc wc : Nat) (X : Subbands) :
    (storeSubbands s hc wc X).msg = s.msg := rfl
@[simp] theorem storeSubbands_cfg (s : State) (hc wc : Nat) (X : Subbands) :
    (storeSubbands s hc wc X).cfg = s.cfg := rfl
@[simp] theorem storeSubbands_epoch (s : State) (hc wc : Nat) (X : Subbands) :
    (storeSubbands s hc wc X).epoch = s.epoch := rfl
@[simp] theorem storeSubbands_dr (s : State) (hc wc : Nat) (X : Subbands) : (storeSubbands s hc wc X).dr = s.dr := rfl
@[simp] theorem storeSubbands_script (s : State) (hc wc : Nat) (X : Subbands) :
    (storeSubbands s hc wc X).script = s.script := rfl

/-! `storeMessage` writes MSG and MSGLEN. -/

@[simp] theorem storeMessage_imgh (s : State) (out : List Byte) : (storeMessage s out).imgh = s.imgh := rfl
@[simp] theorem storeMessage_imgw (s : State) (out : List Byte) : (storeMessage s out).imgw = s.imgw := rfl
@[simp] theorem storeMessage_msglen (s : State) (out : List Byte) :
    (storeMessage s out).msglen = BitVec.ofNat 24 out.length := rfl
@[simp] theorem storeMessage_pend (s : State) (out : List Byte) : (storeMessage s out).pend = s.pend := rfl
@[simp] theorem storeMessage_err (s : State) (out : List Byte) : (storeMessage s out).err = s.err := rfl
@[simp] theorem storeMessage_term (s : State) (out : List Byte) : (storeMessage s out).term = s.term := rfl
@[simp] theorem storeMessage_clipcnt (s : State) (out : List Byte) : (storeMessage s out).clipcnt = s.clipcnt := rfl
@[simp] theorem storeMessage_errinfo0 (s : State) (out : List Byte) :
    (storeMessage s out).errinfo0 = s.errinfo0 := rfl
@[simp] theorem storeMessage_errinfo1 (s : State) (out : List Byte) :
    (storeMessage s out).errinfo1 = s.errinfo1 := rfl
@[simp] theorem storeMessage_accerr (s : State) (out : List Byte) : (storeMessage s out).accerr = s.accerr := rfl
@[simp] theorem storeMessage_pix (s : State) (out : List Byte) : (storeMessage s out).pix = s.pix := rfl
@[simp] theorem storeMessage_ll (s : State) (out : List Byte) : (storeMessage s out).ll = s.ll := rfl
@[simp] theorem storeMessage_lh (s : State) (out : List Byte) : (storeMessage s out).lh = s.lh := rfl
@[simp] theorem storeMessage_hl (s : State) (out : List Byte) : (storeMessage s out).hl = s.hl := rfl
@[simp] theorem storeMessage_hh (s : State) (out : List Byte) : (storeMessage s out).hh = s.hh := rfl
@[simp] theorem storeMessage_msg (s : State) (out : List Byte) :
    (storeMessage s out).msg = memStore s.msg (out.zipIdx.map fun p => (p.2, p.1)) := rfl
@[simp] theorem storeMessage_cfg (s : State) (out : List Byte) : (storeMessage s out).cfg = s.cfg := rfl
@[simp] theorem storeMessage_epoch (s : State) (out : List Byte) : (storeMessage s out).epoch = s.epoch := rfl
@[simp] theorem storeMessage_dr (s : State) (out : List Byte) : (storeMessage s out).dr = s.dr := rfl
@[simp] theorem storeMessage_script (s : State) (out : List Byte) : (storeMessage s out).script = s.script := rfl

/-! R230: the reset input. -/

@[simp] theorem resetBlock_imgh (s : State) : (resetBlock s).imgh = State.reset.imgh := rfl
@[simp] theorem resetBlock_imgw (s : State) : (resetBlock s).imgw = State.reset.imgw := rfl
@[simp] theorem resetBlock_msglen (s : State) : (resetBlock s).msglen = State.reset.msglen := rfl
@[simp] theorem resetBlock_pend (s : State) : (resetBlock s).pend = State.reset.pend := rfl
@[simp] theorem resetBlock_err (s : State) : (resetBlock s).err = State.reset.err := rfl
@[simp] theorem resetBlock_term (s : State) : (resetBlock s).term = State.reset.term := rfl
@[simp] theorem resetBlock_clipcnt (s : State) : (resetBlock s).clipcnt = State.reset.clipcnt := rfl
@[simp] theorem resetBlock_errinfo0 (s : State) : (resetBlock s).errinfo0 = State.reset.errinfo0 := rfl
@[simp] theorem resetBlock_errinfo1 (s : State) : (resetBlock s).errinfo1 = State.reset.errinfo1 := rfl
@[simp] theorem resetBlock_accerr (s : State) : (resetBlock s).accerr = State.reset.accerr := rfl
@[simp] theorem resetBlock_pix (s : State) : (resetBlock s).pix = State.reset.pix := rfl
@[simp] theorem resetBlock_ll (s : State) : (resetBlock s).ll = State.reset.ll := rfl
@[simp] theorem resetBlock_lh (s : State) : (resetBlock s).lh = State.reset.lh := rfl
@[simp] theorem resetBlock_hl (s : State) : (resetBlock s).hl = State.reset.hl := rfl
@[simp] theorem resetBlock_hh (s : State) : (resetBlock s).hh = State.reset.hh := rfl
@[simp] theorem resetBlock_msg (s : State) : (resetBlock s).msg = State.reset.msg := rfl
@[simp] theorem resetBlock_cfg (s : State) : (resetBlock s).cfg = s.cfg := rfl
@[simp] theorem resetBlock_epoch (s : State) : (resetBlock s).epoch = s.epoch + 1 := rfl
@[simp] theorem resetBlock_dr (s : State) : (resetBlock s).dr = s.dr := rfl
@[simp] theorem resetBlock_script (s : State) : (resetBlock s).script = s.script := rfl

/-! `setBand` writes one subband memory. -/

@[simp] theorem setBand_imgh (s : State) (b : Band) (m : Memory Int) : (setBand s b m).imgh = s.imgh := by cases b <;> rfl
@[simp] theorem setBand_imgw (s : State) (b : Band) (m : Memory Int) : (setBand s b m).imgw = s.imgw := by cases b <;> rfl
@[simp] theorem setBand_msglen (s : State) (b : Band) (m : Memory Int) : (setBand s b m).msglen = s.msglen := by cases b <;> rfl
@[simp] theorem setBand_pend (s : State) (b : Band) (m : Memory Int) : (setBand s b m).pend = s.pend := by cases b <;> rfl
@[simp] theorem setBand_err (s : State) (b : Band) (m : Memory Int) : (setBand s b m).err = s.err := by cases b <;> rfl
@[simp] theorem setBand_term (s : State) (b : Band) (m : Memory Int) : (setBand s b m).term = s.term := by cases b <;> rfl
@[simp] theorem setBand_clipcnt (s : State) (b : Band) (m : Memory Int) : (setBand s b m).clipcnt = s.clipcnt := by cases b <;> rfl
@[simp] theorem setBand_errinfo0 (s : State) (b : Band) (m : Memory Int) : (setBand s b m).errinfo0 = s.errinfo0 := by cases b <;> rfl
@[simp] theorem setBand_errinfo1 (s : State) (b : Band) (m : Memory Int) : (setBand s b m).errinfo1 = s.errinfo1 := by cases b <;> rfl
@[simp] theorem setBand_accerr (s : State) (b : Band) (m : Memory Int) : (setBand s b m).accerr = s.accerr := by cases b <;> rfl
@[simp] theorem setBand_pix (s : State) (b : Band) (m : Memory Int) : (setBand s b m).pix = s.pix := by cases b <;> rfl
@[simp] theorem setBand_msg (s : State) (b : Band) (m : Memory Int) : (setBand s b m).msg = s.msg := by cases b <;> rfl
@[simp] theorem setBand_cfg (s : State) (b : Band) (m : Memory Int) : (setBand s b m).cfg = s.cfg := by cases b <;> rfl
@[simp] theorem setBand_epoch (s : State) (b : Band) (m : Memory Int) : (setBand s b m).epoch = s.epoch := by cases b <;> rfl
@[simp] theorem setBand_dr (s : State) (b : Band) (m : Memory Int) : (setBand s b m).dr = s.dr := by cases b <;> rfl
@[simp] theorem setBand_script (s : State) (b : Band) (m : Memory Int) : (setBand s b m).script = s.script := by cases b <;> rfl

/-- Reading the subband memories back. -/
@[simp] theorem bandMem_setBand (s : State) (b b' : Band) (m : Memory Int) :
    bandMem (setBand s b m) b' = if b' = b then m else bandMem s b' := by cases b <;> cases b' <;> rfl

/-! The updates that leave every subband memory alone. -/

@[simp] theorem bandMem_finish (e : Option CmdError) (t : Bool) (n : Nat) (s : State) (b : Band) : bandMem (finish e t n s) b = bandMem s b := by cases b <;> rfl
@[simp] theorem bandMem_fail (e : CmdError) (i0 i1 : Word) (s : State) (b : Band) : bandMem (fail e i0 i1 s) b = bandMem s b := by cases b <;> rfl
@[simp] theorem bandMem_completePending (s : State) (b : Band) : bandMem (completePending s) b = bandMem s b := by cases b <;> rfl
@[simp] theorem bandMem_accessFault (s : State) (b : Band) : bandMem (accessFault s) b = bandMem s b := by cases b <;> rfl
@[simp] theorem bandMem_storePix (s : State) (h w : Nat) (Q : Mat) (b : Band) : bandMem (storePix s h w Q) b = bandMem s b := by cases b <;> rfl
@[simp] theorem bandMem_storeMessage (s : State) (out : List Byte) (b : Band) : bandMem (storeMessage s out) b = bandMem s b := by cases b <;> rfl

end Sys2Proof.Machine
end

