-- ==== Sys2Proof/Laws/Ops.lean ====
section
/-! SUPPORT. One law for each shared operation: what the block's cells read as after it, and when the checks before a
command let it run. -/

namespace Sys2Proof.Machine

/-! The configuration and the sizes. -/

theorem config_bounds (c : Config) : 2 ≤ c.maxh ∧ c.maxh ≤ 1024 ∧ c.maxh % 2 = 0 ∧ 2 ≤ c.maxw ∧ c.maxw ≤ 1024 ∧
    c.maxw % 2 = 0 ∧ 11 ≤ c.cw ∧ c.cw ≤ 32 := by
  have := c.legal
  simp only [legalSizes, Bool.and_eq_true, decide_eq_true_eq] at this
  omega

theorem dimOk_iff {s : State} : dimOk s = true ↔ DimsAccepted s := by
  simp only [dimOk, DimsAccepted, Bool.and_eq_true, decide_eq_true_eq, and_assoc]

/-- R140: within accepted dimensions every cell a command names exists. -/
theorem dims_bounds {s : State} (h : DimsAccepted s) : padh s ≤ s.cfg.maxh ∧ padw s ≤ s.cfg.maxw ∧
    subh s ≤ maxhc s.cfg ∧ subw s ≤ maxwc s.cfg ∧ 1 ≤ subh s ∧ 1 ≤ subw s ∧ subw s ≤ 512 ∧ padw s ≤ 1024 ∧
    padh s = 2 * subh s ∧ padw s = 2 * subw s := by
  obtain ⟨h1, h2, h3, h4⟩ := h
  have := config_bounds s.cfg
  simp only [padh, padw, subh, subw, maxhc, maxwc]
  omega

/-- R7: the decoder never delivers more bytes than MSG holds. -/
theorem cap_le_msgn {s : State} (h : DimsAccepted s) : cap s / 8 ≤ msgn s.cfg := by
  have := dims_bounds h
  exact Nat.div_le_div_right (Nat.mul_le_mul this.2.2.1 this.2.2.2.1)

theorem cap_le {s : State} (h : DimsAccepted s) : cap s ≤ 262144 := by
  have h1 := dims_bounds h
  have h2 := config_bounds s.cfg
  have : subh s ≤ 512 := by
    have := h1.2.2.1
    simp only [maxhc] at this
    omega
  exact Nat.le_trans (Nat.mul_le_mul this h1.2.2.2.2.2.2.1) (by decide)

/-! Cells after a store. -/

theorem pixAt_storePix (s : State) (h : Nat) {w : Nat} (hw : w ≤ 1024) (Q : Mat) (r : Nat) {c : Nat} (hc : c < 1024) :
    pixAt (storePix s h w Q) r c = if r < h ∧ c < w then BitVec.ofInt 8 (Q r c) else pixAt s r c := by
  simp only [pixAt, storePix_pix, storePix_epoch, memFind_store_region s.pix hw _ r c hc]
  split <;> rfl

theorem coefAt_storeSubbands_ll (s : State) (h : Nat) {w : Nat} (hw : w ≤ 1024) (X : Subbands) (k : Nat) {j : Nat}
    (hj : j < 1024) : coefAt (storeSubbands s h w X) .ll k j = if k < h ∧ j < w then X.ll k j else coefAt s .ll k j := by
  simp only [coefAt, bandMem, storeSubbands_ll, storeSubbands_epoch, storeSubbands_cfg,
    memFind_store_region s.ll hw _ k j hj]
  split <;> rfl

theorem coefAt_storeSubbands_lh (s : State) (h : Nat) {w : Nat} (hw : w ≤ 1024) (X : Subbands) (k : Nat) {j : Nat}
    (hj : j < 1024) : coefAt (storeSubbands s h w X) .lh k j = if k < h ∧ j < w then X.lh k j else coefAt s .lh k j := by
  simp only [coefAt, bandMem, storeSubbands_lh, storeSubbands_epoch, storeSubbands_cfg,
    memFind_store_region s.lh hw _ k j hj]
  split <;> rfl

theorem coefAt_storeSubbands_hl (s : State) (h : Nat) {w : Nat} (hw : w ≤ 1024) (X : Subbands) (k : Nat) {j : Nat}
    (hj : j < 1024) : coefAt (storeSubbands s h w X) .hl k j = if k < h ∧ j < w then X.hl k j else coefAt s .hl k j := by
  simp only [coefAt, bandMem, storeSubbands_hl, storeSubbands_epoch, storeSubbands_cfg,
    memFind_store_region s.hl hw _ k j hj]
  split <;> rfl

theorem coefAt_storeSubbands_hh (s : State) (h : Nat) {w : Nat} (hw : w ≤ 1024) (X : Subbands) (k : Nat) {j : Nat}
    (hj : j < 1024) : coefAt (storeSubbands s h w X) .hh k j = if k < h ∧ j < w then X.hh k j else coefAt s .hh k j := by
  simp only [coefAt, bandMem, storeSubbands_hh, storeSubbands_epoch, storeSubbands_cfg,
    memFind_store_region s.hh hw _ k j hj]
  split <;> rfl

/-- The cells of a message, one for each byte. -/
theorem mem_messageCells {out : List Byte} {x : Nat × Byte} :
    x ∈ out.zipIdx.map (fun p => (p.2, p.1)) ↔ ∃ h : x.1 < out.length, x.2 = out[x.1] := by
  simp only [List.mem_map, List.mem_zipIdx_iff_getElem?, Prod.exists]
  constructor
  · rintro ⟨a, b, h, rfl⟩
    obtain ⟨hb, rfl⟩ := List.getElem?_eq_some_iff.1 h
    exact ⟨hb, rfl⟩
  · rintro ⟨h, he⟩
    exact ⟨x.2, x.1, by rw [List.getElem?_eq_getElem h, he], rfl⟩

theorem messageCells_distinct (out : List Byte) :
    (out.zipIdx.map fun p => (p.2, p.1)).Pairwise fun x y => x.1 ≠ y.1 := by
  rw [List.pairwise_map, List.pairwise_iff_getElem]
  intro i j hi hj hlt
  simp only [List.getElem_zipIdx]
  omega

theorem msgAt_storeMessage (s : State) (out : List Byte) (i : Nat) :
    msgAt (storeMessage s out) i = if h : i < out.length then out[i] else msgAt s i := by
  simp only [msgAt, storeMessage_msg, storeMessage_epoch]
  split
  · rename_i h
    rw [memFind_memStore_of_mem _ (messageCells_distinct out) (v := out[i]) (mem_messageCells.2 ⟨h, rfl⟩)]
    rfl
  · rename_i h
    rw [memFind_memStore_of_not_mem]
    exact fun v hv => h (mem_messageCells.1 hv).1

/-- R155: the row-major cell of a position below CAP lies in the live region, and no two positions share one. -/
theorem flat_inj {w i j : Nat} (h : i / w = j / w) (h' : i % w = j % w) : i = j := by
  rw [← Nat.div_add_mod i w, ← Nat.div_add_mod j w, h, h']

theorem mem_spliceCells {w : Nat} {bits : List Bool} {A : Mat} {x : Nat × Int} :
    x ∈ spliceCells w bits A ↔
      ∃ i, ∃ h : i < bits.length, x = (cellKey (i / w) (i % w), setlsb (A (i / w) (i % w)) bits[i]) := by
  simp only [spliceCells, List.mem_map, List.mem_zipIdx_iff_getElem?, Prod.exists]
  constructor
  · rintro ⟨a, b, h, rfl⟩
    obtain ⟨hb, rfl⟩ := List.getElem?_eq_some_iff.1 h
    exact ⟨b, hb, rfl⟩
  · rintro ⟨i, h, rfl⟩
    exact ⟨bits[i], i, List.getElem?_eq_getElem h, rfl⟩

theorem spliceCells_distinct {w : Nat} (h0 : 0 < w) (hw : w ≤ 1024) (bits : List Bool) (A : Mat) :
    (spliceCells w bits A).Pairwise fun x y => x.1 ≠ y.1 := by
  rw [spliceCells, List.pairwise_map, List.pairwise_iff_getElem]
  intro i j hi hj hlt
  simp only [List.getElem_zipIdx, Nat.zero_add]
  intro he
  rw [cellKey_inj (Nat.lt_of_lt_of_le (Nat.mod_lt _ h0) hw) (Nat.lt_of_lt_of_le (Nat.mod_lt _ h0) hw)] at he
  have := flat_inj he.1 he.2
  omega

/-- The cell (k, j) with j < w is the one at row-major position k × w + j. -/
theorem flat_div {w k j : Nat} (hj : j < w) : (k * w + j) / w = k := by
  rw [Nat.mul_comm, Nat.mul_add_div (by omega), Nat.div_eq_of_lt hj, Nat.add_zero]

theorem flat_mod {w k j : Nat} (hj : j < w) : (k * w + j) % w = j := by
  rw [Nat.mul_comm, Nat.mul_add_mod, Nat.mod_eq_of_lt hj]

/-- R153: LL after a splice, one cell of the live region. -/
theorem memFind_splice (m : Memory Int) {w : Nat} (h0 : 0 < w) (hw : w ≤ 1024) (bits : List Bool) (A : Mat)
    (k : Nat) {j : Nat} (hj : j < 1024) : memFind (memStore m (spliceCells w bits A)) (cellKey k j) =
      if h : j < w ∧ k * w + j < bits.length then some (setlsb (A k j) (bits[k * w + j]'h.2))
      else memFind m (cellKey k j) := by
  split
  · rename_i h
    refine memFind_memStore_of_mem _ (spliceCells_distinct h0 hw bits A) (mem_spliceCells.2 ⟨k * w + j, h.2, ?_⟩)
    rw [flat_div h.1, flat_mod h.1]
  · rename_i h
    refine memFind_memStore_of_not_mem _ _ fun v hv => h ?_
    obtain ⟨i, hi, he⟩ := mem_spliceCells.1 hv
    have hm := Nat.mod_lt i h0
    obtain ⟨hk, hj'⟩ := (cellKey_inj hj (by omega)).1 (congrArg Prod.fst he)
    subst hk
    subst hj'
    refine ⟨hm, ?_⟩
    rw [Nat.mul_comm, Nat.div_add_mod]
    exact hi

theorem spliced_of_lt {w : Nat} {bits : List Bool} {A : Mat} {k j : Nat} (h : k * w + j < bits.length) :
    spliced w bits A k j = setlsb (A k j) bits[k * w + j] := by
  simp [spliced, List.getElem?_eq_getElem h]

theorem spliced_of_le {w : Nat} {bits : List Bool} {A : Mat} {k j : Nat} (h : bits.length ≤ k * w + j) :
    spliced w bits A k j = A k j := by
  simp [spliced, List.getElem?_eq_none h]

/-! The message and the checks. -/

@[simp] theorem length_message (s : State) : (message s).length = s.msglen.toNat := by
  simp [message]

theorem getElem_message (s : State) (i : Nat) (h : i < (message s).length) : (message s)[i] = msgAt s i := by
  simp [message]

theorem length_bitstream_message (s : State) : (bitstream (message s)).length = bitlen s := by
  rw [length_bitstream, length_message, bitlen]

theorem firstNul_none {s : State} : firstNul s = none ↔ NoZeroByte s := by
  simp [firstNul, NoZeroByte]

theorem firstNul_some {s : State} {p : Nat} : firstNul s = some p ↔
    p < s.msglen.toNat ∧ msgAt s p = 0 ∧ ∀ q, q < p → msgAt s q ≠ 0 := by
  rw [firstNul, List.find?_range_eq_some]
  simp only [decide_eq_true_eq, List.mem_range, Bool.not_eq_true', decide_eq_false_iff_not]
  constructor
  · rintro ⟨h0, hp, hq⟩
    exact ⟨hp, h0, hq⟩
  · rintro ⟨hp, h0, hq⟩
    exact ⟨h0, hp, hq⟩

theorem dimFailure_none {s : State} : dimFailure s = none ↔ DimsAccepted s := by
  rw [← dimOk_iff, dimFailure]
  split <;> simp_all

theorem dimFailure_some {s : State} (h : ¬DimsAccepted s) : dimFailure s = some (failBadDim s) := by
  rw [dimFailure, if_neg]
  rwa [dimOk_iff]

theorem payloadFailure_none {s : State} :
    payloadFailure s = none ↔ DimsAccepted s ∧ MessageFits s ∧ NoZeroByte s := by
  rw [← dimOk_iff, ← firstNul_none, payloadFailure, MessageFits, cap, bitlen]
  by_cases hd : dimOk s
  · by_cases hc : subh s * subw s < 8 * s.msglen.toNat + 8
    · simp [hd, hc]
    · have hle : 8 * s.msglen.toNat + 8 ≤ subh s * subw s := by omega
      cases hf : firstNul s <;> simp [hd, hc, hle]
  · simp [hd]

/-- R208: the only ways SPLICE and EMBED fail, in order. -/
theorem payloadFailure_some {s f : State} (h : payloadFailure s = some f) :
    (¬DimsAccepted s ∧ f = failBadDim s) ∨
    (DimsAccepted s ∧ ¬MessageFits s ∧
      f = fail .capacityExceeded (BitVec.ofNat 32 (bitlen s)) (BitVec.ofNat 32 (cap s)) s) ∨
    (DimsAccepted s ∧ MessageFits s ∧ ∃ p, firstNul s = some p ∧ f = fail .nulInPayload (BitVec.ofNat 32 p) 0 s) := by
  rw [payloadFailure] at h
  rw [← dimOk_iff, MessageFits]
  split at h
  · rename_i hd
    cases h
    exact .inl ⟨by simp [hd], rfl⟩
  · rename_i hd
    have hd : dimOk s = true := by simpa using hd
    split at h
    · rename_i hc
      cases h
      refine .inr (.inl ⟨hd, ?_, rfl⟩)
      simp only [cap, bitlen] at hc
      omega
    · rename_i hc
      simp only [cap, bitlen] at hc
      split at h
      · rename_i p hp
        cases h
        exact .inr (.inr ⟨hd, by omega, p, hp, rfl⟩)
      · cases h

/-! Stores of equal contents, and any subband after a store. -/

theorem storePix_congr {h w : Nat} {f g : Mat} (s : State) (he : ∀ r c, r < h → c < w → f r c = g r c) :
    storePix s h w f = storePix s h w g := by
  simp only [storePix]
  rw [regionCells_congr fun r c hr hc => by rw [he r c hr hc]]

/-- One subband of a quadruple. -/
def bandOf (X : Subbands) : Band → Mat
  | .ll => X.ll
  | .lh => X.lh
  | .hl => X.hl
  | .hh => X.hh

theorem coefAt_storeSubbands (s : State) (h : Nat) {w : Nat} (hw : w ≤ 1024) (X : Subbands) (b : Band) (k : Nat)
    {j : Nat} (hj : j < 1024) :
    coefAt (storeSubbands s h w X) b k j = if k < h ∧ j < w then bandOf X b k j else coefAt s b k j := by
  cases b
  · exact coefAt_storeSubbands_ll s h hw X k hj
  · exact coefAt_storeSubbands_lh s h hw X k hj
  · exact coefAt_storeSubbands_hl s h hw X k hj
  · exact coefAt_storeSubbands_hh s h hw X k hj

theorem bandMem_storeSubbands (s : State) (h w : Nat) (X : Subbands) (b : Band) :
    bandMem (storeSubbands s h w X) b = memStore (bandMem s b) (regionCells h w (bandOf X b)) := by
  cases b <;> rfl

/-- The clip count of a command fits CLIPCNT. -/
theorem countClipped_word {s : State} (hd : DimsAccepted s) (R : Mat) :
    (BitVec.ofNat 32 (countClipped (2 * subh s) (2 * subw s) R)).toNat = countClipped (padh s) (padw s) R := by
  have hb := dims_bounds hd
  have hc := config_bounds s.cfg
  have h1 := countClipped_le (padh s) (padw s) R
  have : padh s * padw s ≤ 1024 * 1024 := Nat.mul_le_mul (by omega) (by omega)
  rw [← hb.2.2.2.2.2.2.2.2.1, ← hb.2.2.2.2.2.2.2.2.2, BitVec.toNat_ofNat, Nat.mod_eq_of_lt (by omega)]

end Sys2Proof.Machine
end

