-- ==== Sys2Proof/Laws/Commands.lean ====
section
/-! SUPPORT. What each command can do, said once: the cells it leaves alone, its completion, and the inversion lemma
from which the invariants of a step follow. -/

namespace Sys2Proof.Machine

/-! Cells that an update leaves alone. -/

@[simp] theorem pixAt_finish (e : Option CmdError) (t : Bool) (n : Nat) (s : State) (r c : Nat) : pixAt (finish e t n s) r c = pixAt s r c := rfl
@[simp] theorem coefAt_finish (e : Option CmdError) (t : Bool) (n : Nat) (s : State) (b : Band) (k j : Nat) :
    coefAt (finish e t n s) b k j = coefAt s b k j := by cases b <;> rfl
@[simp] theorem msgAt_finish (e : Option CmdError) (t : Bool) (n : Nat) (s : State) (i : Nat) : msgAt (finish e t n s) i = msgAt s i := rfl
@[simp] theorem pixAt_fail (e : CmdError) (i0 i1 : Word) (s : State) (r c : Nat) : pixAt (fail e i0 i1 s) r c = pixAt s r c := rfl
@[simp] theorem coefAt_fail (e : CmdError) (i0 i1 : Word) (s : State) (b : Band) (k j : Nat) :
    coefAt (fail e i0 i1 s) b k j = coefAt s b k j := by cases b <;> rfl
@[simp] theorem msgAt_fail (e : CmdError) (i0 i1 : Word) (s : State) (i : Nat) : msgAt (fail e i0 i1 s) i = msgAt s i := rfl
@[simp] theorem pixAt_completePending (s : State) (r c : Nat) : pixAt (completePending s) r c = pixAt s r c := rfl
@[simp] theorem coefAt_completePending (s : State) (b : Band) (k j : Nat) :
    coefAt (completePending s) b k j = coefAt s b k j := by cases b <;> rfl
@[simp] theorem msgAt_completePending (s : State) (i : Nat) : msgAt (completePending s) i = msgAt s i := rfl
@[simp] theorem pixAt_accessFault (s : State) (r c : Nat) : pixAt (accessFault s) r c = pixAt s r c := rfl
@[simp] theorem coefAt_accessFault (s : State) (b : Band) (k j : Nat) :
    coefAt (accessFault s) b k j = coefAt s b k j := by cases b <;> rfl
@[simp] theorem msgAt_accessFault (s : State) (i : Nat) : msgAt (accessFault s) i = msgAt s i := rfl
@[simp] theorem coefAt_storePix (s : State) (h w : Nat) (Q : Mat) (b : Band) (k j : Nat) :
    coefAt (storePix s h w Q) b k j = coefAt s b k j := by cases b <;> rfl
@[simp] theorem msgAt_storePix (s : State) (h w : Nat) (Q : Mat) (i : Nat) : msgAt (storePix s h w Q) i = msgAt s i := rfl
@[simp] theorem pixAt_storeSubbands (s : State) (hc wc : Nat) (X : Subbands) (r c : Nat) : pixAt (storeSubbands s hc wc X) r c = pixAt s r c := rfl
@[simp] theorem msgAt_storeSubbands (s : State) (hc wc : Nat) (X : Subbands) (i : Nat) : msgAt (storeSubbands s hc wc X) i = msgAt s i := rfl
@[simp] theorem pixAt_storeMessage (s : State) (out : List Byte) (r c : Nat) : pixAt (storeMessage s out) r c = pixAt s r c := rfl
@[simp] theorem coefAt_storeMessage (s : State) (out : List Byte) (b : Band) (k j : Nat) :
    coefAt (storeMessage s out) b k j = coefAt s b k j := by cases b <;> rfl

/-! The completion of each command, where its operands are accepted. -/

theorem execFwd_accepted {s : State} (h : DimsAccepted s) :
    execFwd s = .next (finish none false 0 (storeSubbands s (subh s) (subw s) (forwardOfImage s))) := by
  rw [execFwd, dimFailure_none.2 h]

theorem execInv_accepted {s : State} (h : DimsAccepted s) :
    execInv s = .next (finish none false (inv2d (subh s) (subw s) (subbands s)).2
      (storePix s (padh s) (padw s) (inv2d (subh s) (subw s) (subbands s)).1)) := by
  rw [execInv, dimFailure_none.2 h]

theorem execSplice_accepted {s : State} (h : DimsAccepted s) (hf : MessageFits s) (hz : NoZeroByte s) :
    execSplice s = .next (finish none false 0
      { s with ll := memStore s.ll (spliceCells (subw s) (bitstream (message s)) (coefAt s .ll)) }) := by
  rw [execSplice, payloadFailure_none.2 ⟨h, hf, hz⟩]

theorem execUnsplice_accepted {s : State} (h : DimsAccepted s) :
    execUnsplice s = .next (deliver s (decodeGroups (llBits (cap s) (subw s) (coefAt s .ll)))) := by
  rw [execUnsplice, dimFailure_none.2 h]

theorem execEmbed_accepted {s : State} (h : DimsAccepted s) (hf : MessageFits s) (hz : NoZeroByte s) :
    execEmbed s = .next (finish none false (inv2d (subh s) (subw s) (embedSubbands s)).2
      (storePix (storeSubbands s (subh s) (subw s) (embedSubbands s)) (padh s) (padw s)
        (inv2d (subh s) (subw s) (embedSubbands s)).1)) := by
  rw [execEmbed, payloadFailure_none.2 ⟨h, hf, hz⟩]

theorem execExtract_accepted {s : State} (h : DimsAccepted s) :
    execExtract s = .next (deliver (storeSubbands s (subh s) (subw s) (forwardOfImage s))
      (decodeGroups (llBits (cap s) (subw s) (forwardOfImage s).ll))) := by
  rw [execExtract, dimFailure_none.2 h]

/-! What a command can answer. -/

/-- A command that checks its dimensions fails with BadDim or runs. -/
theorem dimChecked_cases {s t u : State}
    (h : (match dimFailure s with | some f => Host.Outcome.next f | none => .next u) =
      (.next t : Host.Outcome State Fault Refusal)) :
    (¬DimsAccepted s ∧ t = failBadDim s) ∨ (DimsAccepted s ∧ t = u) := by
  by_cases hd : DimsAccepted s
  · rw [dimFailure_none.2 hd] at h
    cases h
    exact .inr ⟨hd, rfl⟩
  · rw [dimFailure_some hd] at h
    cases h
    exact .inl ⟨hd, rfl⟩

/-- A command that checks its message fails with one of the three errors, in order, or runs. -/
theorem payloadChecked_cases {s t u : State}
    (h : (match payloadFailure s with | some f => Host.Outcome.next f | none => .next u) =
      (.next t : Host.Outcome State Fault Refusal)) :
    (∃ e i0 i1, (e = .badDim ∨ e = .capacityExceeded ∨ e = .nulInPayload) ∧ t = fail e i0 i1 s) ∨
    (DimsAccepted s ∧ MessageFits s ∧ NoZeroByte s ∧ t = u) := by
  cases hp : payloadFailure s with
  | none =>
    rw [hp] at h
    cases h
    exact .inr (by simpa [and_assoc] using payloadFailure_none.1 hp)
  | some f =>
    rw [hp] at h
    cases h
    rcases payloadFailure_some hp with ⟨_, rfl⟩ | ⟨_, _, rfl⟩ | ⟨_, _, p, _, rfl⟩
    · exact .inl ⟨_, _, _, .inl rfl, rfl⟩
    · exact .inl ⟨_, _, _, .inr (.inl rfl), rfl⟩
    · exact .inl ⟨_, _, _, .inr (.inr rfl), rfl⟩

/-- The seven ways a command answers: an aborting error, or the effect of the command. -/
inductive CommandEffect : Instr → State → State → Prop
  | failed {i : Instr} {s : State} (e : CmdError) (i0 i1 : Word)
      (he : e = .badDim ∨ e = .capacityExceeded ∨ e = .nulInPayload) : CommandEffect i s (fail e i0 i1 s)
  | nop {s : State} : CommandEffect .nop s (finish none false 0 s)
  | fwd {s : State} (h : DimsAccepted s) :
      CommandEffect .fwd s (finish none false 0 (storeSubbands s (subh s) (subw s) (forwardOfImage s)))
  | inv {s : State} (h : DimsAccepted s) :
      CommandEffect .inv s (finish none false (inv2d (subh s) (subw s) (subbands s)).2
        (storePix s (padh s) (padw s) (inv2d (subh s) (subw s) (subbands s)).1))
  | splice {s : State} (h : DimsAccepted s) (hf : MessageFits s) (hz : NoZeroByte s) :
      CommandEffect .splice s (finish none false 0
        { s with ll := memStore s.ll (spliceCells (subw s) (bitstream (message s)) (coefAt s .ll)) })
  | unsplice {s : State} (h : DimsAccepted s) :
      CommandEffect .unsplice s (deliver s (decodeGroups (llBits (cap s) (subw s) (coefAt s .ll))))
  | embed {s : State} (h : DimsAccepted s) (hf : MessageFits s) (hz : NoZeroByte s) :
      CommandEffect .embed s (finish none false (inv2d (subh s) (subw s) (embedSubbands s)).2
        (storePix (storeSubbands s (subh s) (subw s) (embedSubbands s)) (padh s) (padw s)
          (inv2d (subh s) (subw s) (embedSubbands s)).1))
  | extract {s : State} (h : DimsAccepted s) :
      CommandEffect .extract s (deliver (storeSubbands s (subh s) (subw s) (forwardOfImage s))
        (decodeGroups (llBits (cap s) (subw s) (forwardOfImage s).ll)))

/-- Every answer of a command is one of them. -/
theorem exec_effect {i : Instr} {s t : State} (h : exec i s = .next t) : CommandEffect i s t := by
  cases i with
  | nop =>
    cases h
    exact .nop
  | fwd =>
    rcases dimChecked_cases h with ⟨_, rfl⟩ | ⟨hd, rfl⟩
    · exact .failed _ _ _ (.inl rfl)
    · exact .fwd hd
  | inv =>
    rcases dimChecked_cases h with ⟨_, rfl⟩ | ⟨hd, rfl⟩
    · exact .failed _ _ _ (.inl rfl)
    · exact .inv hd
  | splice =>
    rcases payloadChecked_cases h with ⟨e, i0, i1, he, rfl⟩ | ⟨hd, hf, hz, rfl⟩
    · exact .failed _ _ _ he
    · exact .splice hd hf hz
  | unsplice =>
    rcases dimChecked_cases h with ⟨_, rfl⟩ | ⟨hd, rfl⟩
    · exact .failed _ _ _ (.inl rfl)
    · exact .unsplice hd
  | embed =>
    rcases payloadChecked_cases h with ⟨e, i0, i1, he, rfl⟩ | ⟨hd, hf, hz, rfl⟩
    · exact .failed _ _ _ he
    · exact .embed hd hf hz
  | extract =>
    rcases dimChecked_cases h with ⟨_, rfl⟩ | ⟨hd, rfl⟩
    · exact .failed _ _ _ (.inl rfl)
    · exact .extract hd

/-- A command always answers a next state. -/
theorem exec_next (i : Instr) (s : State) : ∃ t, exec i s = .next t := by
  cases i
  · exact ⟨_, rfl⟩
  · simp only [exec, execFwd]
    cases dimFailure s <;> exact ⟨_, rfl⟩
  · simp only [exec, execInv]
    cases dimFailure s <;> exact ⟨_, rfl⟩
  · simp only [exec, execSplice]
    cases payloadFailure s <;> exact ⟨_, rfl⟩
  · simp only [exec, execUnsplice]
    cases dimFailure s <;> exact ⟨_, rfl⟩
  · simp only [exec, execEmbed]
    cases payloadFailure s <;> exact ⟨_, rfl⟩
  · simp only [exec, execExtract]
    cases dimFailure s <;> exact ⟨_, rfl⟩

end Sys2Proof.Machine
end

