-- ==== Sys2Proof/Laws/HostPort.lean ====
section
/-! SUPPORT. The laws of the host port: the fields of an address, the cell it names, what the two host transactions can
do, and one step of a run. -/

namespace Sys2Proof.Machine

theorem addrSpace_eq (a : Addr) : addrSpace a = a.toNat / 2 ^ 20 := by
  simp only [addrSpace, BitVec.extractLsb'_toNat, Nat.shiftRight_eq_div_pow]
  have := a.isLt
  omega

theorem addrRow_eq (a : Addr) : addrRow a = a.toNat / 2 ^ 10 % 2 ^ 10 := by
  simp only [addrRow, BitVec.extractLsb'_toNat, Nat.shiftRight_eq_div_pow]

theorem addrCol_eq (a : Addr) : addrCol a = a.toNat % 2 ^ 10 := by
  simp only [addrCol, BitVec.extractLsb'_toNat, Nat.shiftRight_eq_div_pow]
  omega

theorem addrIndex_eq (a : Addr) : addrIndex a = a.toNat % 2 ^ 20 := by
  simp only [addrIndex, BitVec.extractLsb'_toNat, Nat.shiftRight_eq_div_pow]
  omega

theorem regOfNumber_some {n : Nat} {r : RegName} (h : regOfNumber n = some r) : regNumber r = n := by
  unfold regOfNumber at h
  split at h <;> first | (cases h; rfl) | cases h

theorem regOfNumber_regNumber (r : RegName) : regOfNumber (regNumber r) = some r := by cases r <;> rfl

theorem regNumber_le (r : RegName) : regNumber r ≤ 13 := by cases r <;> decide

theorem msgn_le (c : Config) : msgn c ≤ 32768 := by
  have := config_bounds c
  have : maxhc c * maxwc c ≤ 512 * 512 := Nat.mul_le_mul (by simp only [maxhc]; omega) (by simp only [maxwc]; omega)
  simp only [msgn]
  omega


/-- What a valid address names, and why it is valid. -/
theorem cellOfAddr_cases {c : Config} {a : Addr} {n : CellName} (h : cellOfAddr c a = some n) :
  (∃ r, n = .reg r ∧ addrSpace a = 0 ∧ regNumber r = addrIndex a) ∨
  (n = .pix (addrRow a) (addrCol a) ∧ addrSpace a = 1 ∧ addrRow a < c.maxh ∧ addrCol a < c.maxw) ∨
  (∃ b, n = .coef b (addrRow a) (addrCol a) ∧ addrSpace a = bandSpace b ∧ addrRow a < maxhc c ∧ addrCol a < maxwc c) ∨
  (n = .msg (addrIndex a) ∧ addrSpace a = 6 ∧ addrIndex a < msgn c) := by
  unfold cellOfAddr at h
  split at h
  · rename_i hs
    cases hr : regOfNumber (addrIndex a) with
    | none => simp [hr] at h
    | some r => simp [hr] at h; exact .inl ⟨r, h.symm, hs, regOfNumber_some hr⟩
  · rename_i hs
    split at h
    · cases h; rename_i hb; exact .inr (.inl ⟨rfl, hs, hb⟩)
    · cases h
  all_goals try (
    rename_i hs
    unfold coefCell at h
    split at h
    · cases h; rename_i hb; exact .inr (.inr (.inl ⟨_, rfl, hs, hb⟩))
    · cases h)
  · rename_i hs
    split at h
    · cases h; rename_i hb; exact .inr (.inr (.inr ⟨rfl, hs, hb⟩))
    · cases h
  · cases h

/-- The value of the low CW bits of a word, in two's complement. -/
theorem signedLow_eq {cw : Nat} (h : 1 ≤ cw) (d : Word) : signedLow cw d =
    if d.toNat % 2 ^ cw < 2 ^ (cw - 1) then ((d.toNat % 2 ^ cw : Nat) : Int)
    else ((d.toNat % 2 ^ cw : Nat) : Int) - 2 ^ cw := by
  obtain ⟨n, rfl⟩ : ∃ n, cw = n + 1 := ⟨cw - 1, by omega⟩
  rw [signedLow, BitVec.toInt_eq_toNat_cond, BitVec.toNat_setWidth]
  simp only [Nat.add_sub_cancel]
  have : (2 : Nat) ^ (n + 1) = 2 * 2 ^ n := by rw [pow_succ]; omega
  split <;> split <;> first | omega | (push_cast; rfl)

theorem signedLow_range {cw : Nat} (d : Word) :
    -(2 ^ (cw - 1) : Int) ≤ signedLow cw d ∧ signedLow cw d ≤ 2 ^ (cw - 1) - 1 := by
  have h1 := BitVec.le_toInt (d.setWidth cw)
  have h2 := BitVec.toInt_lt (x := d.setWidth cw)
  simp only [signedLow]
  omega

/-- Everything a host read can do: it changes nothing, or records an access fault. -/
theorem hostRead_cases (s : State) (a : Addr) :
    (hostRead s a).1 = s ∨ hostRead s a = (accessFault s, 0) := by
  unfold hostRead
  split
  · split
    · exact .inl rfl
    · exact .inr rfl
  · split
    · exact .inr rfl
    · exact .inl rfl

/-- Everything a host write can do: it records an access fault, or writes the cell an idle block has at the address. -/
theorem hostWrite_cases (s : State) (a : Addr) (d : Word) :
    hostWrite s a d = accessFault s ∨
    ∃ n, s.pend = none ∧ cellOfAddr s.cfg a = some n ∧ hostWrite s a d = writeCell s d n := by
  unfold hostWrite
  split
  · exact .inl rfl
  · rename_i hb
    split
    · exact .inl rfl
    · rename_i n hn
      exact .inr ⟨n, by simpa [busyFlag] using hb, hn, rfl⟩

theorem hostWrite_of_cell {s : State} {a : Addr} {d : Word} {n : CellName} (hp : s.pend = none)
    (hc : cellOfAddr s.cfg a = some n) : hostWrite s a d = writeCell s d n := by
  simp [hostWrite, busyFlag, hp, hc]

theorem hostRead_of_cell {s : State} {a : Addr} {n : CellName} (hp : s.pend = none)
    (hc : cellOfAddr s.cfg a = some n) : hostRead s a = (s, readCell s n) := by
  simp [hostRead, busyFlag, hp, hc]

/-- R72: with a word pending the engine step is Exec of it, and PEND is then empty. -/
theorem engineStep_pending {s v : State} {w : Word} (hp : s.pend = some w) (hv : execWord w s = .next v) :
    engineStep s = .next (completePending v) := by
  simp only [engineStep, hp, hv]

/-- The first step of a run. -/
theorem run_succ (M : Host.Core) (k : Nat) (x y : M.State) (h : M.step x = .next y) : M.run (k + 1) x = M.run k y := by
  rw [Host.Core.run, h]

end Sys2Proof.Machine
end

