-- ==== Sys2Proof/Laws/PerInstr.lean ====
section
/-! SUPPORT. Statements about every command as syntax, one lemma per constructor. -/

namespace Sys2Proof.Laws

/-- Decoding the word of a well-formed command gives the command back (30_encoding.md R91, R97). -/
def RoundTrip.Statement (i : Instr) : Prop := i.wellFormed = true → decode (encode i) = .ok i

theorem RoundTrip.nop : RoundTrip.Statement .nop := fun _ => rfl
theorem RoundTrip.fwd : RoundTrip.Statement .fwd := fun _ => rfl
theorem RoundTrip.inv : RoundTrip.Statement .inv := fun _ => rfl
theorem RoundTrip.splice : RoundTrip.Statement .splice := fun _ => rfl
theorem RoundTrip.unsplice : RoundTrip.Statement .unsplice := fun _ => rfl
theorem RoundTrip.embed : RoundTrip.Statement .embed := fun _ => rfl
theorem RoundTrip.extract : RoundTrip.Statement .extract := fun _ => rfl

end Sys2Proof.Laws
end

