-- ==== Sys2Proof/Tests/Slice0.lean ====
section
/-! SUPPORT. This model's own tests. Expected values are those of the spec's test vectors (95_test_vectors.md, named V<n>
or program P<n> in each comment). The `witness_` theorems show, for every statement that has hypotheses, concrete states
and operands that meet them. -/

namespace Sys2Proof.Tests

open Sys2Proof Sys2Proof.Machine

/-! ## Small states -/

/-- The reset state with the three operand registers set. -/
def dims (h w n : Nat) : State :=
  { State.reset with imgh := BitVec.ofNat 16 h, imgw := BitVec.ofNat 16 w, msglen := BitVec.ofNat 24 n }

/-- Rows of cells from row 0, column 0. -/
def rows {α : Type} (l : List (List α)) : List (Nat × α) :=
  l.zipIdx.flatMap fun r => r.1.zipIdx.map fun c => (cellKey r.2 c.2, c.1)

def withLL (s : State) (l : List (List Int)) : State := { s with ll := rows l }
def withMsg (s : State) (l : List Byte) : State := { s with msg := l.zipIdx.map fun p => (p.2, p.1) }

/-- One coefficient quadruple in a 2 × 2 image. -/
def quad (ll lh hl hh : Int) : State :=
  { dims 2 2 0 with ll := [(0, ll)], lh := [(0, lh)], hl := [(0, hl)], hh := [(0, hh)] }

/-- The state after a command. -/
def after (i : Instr) (s : State) : State :=
  match exec i s with
  | .next t => t
  | .fault _ => s
  | .refused _ => s

theorem exec_after (i : Instr) (s : State) : exec i s = .next (after i s) := by
  obtain ⟨t, ht⟩ := exec_next i s
  rw [after, ht]

/-- The live cells of a subband, and the cells of the padded image, in row-major order. -/
def liveCells (s : State) (b : Band) : List Int := (regionCells (subh s) (subw s) (coefAt s b)).map (·.2)
def livePix (s : State) : List Nat := (regionCells (padh s) (padw s) fun r c => (pixAt s r c).toNat).map (·.2)

/-- STATUS, ERRINFO0, ERRINFO1 and CLIPCNT. -/
def results (s : State) : List Nat := [statusWord s, s.errinfo0, s.errinfo1, s.clipcnt].map (·.toNat)

/-- The 8 × 8 image of V21 and the 7 × 9 image of V23, with a one-byte message. -/
def imageP : Mat := fun r c => (((37 * r + 11 * c + 5 * r * c + 20) % 200 : Nat) : Int) + 20
def imagePo : Mat := fun r c => (((13 * r + 29 * c + 7 * r * c + 31) % 180 : Nat) : Int) + 30
def stateP (n : Nat) : State := withMsg (storePix (dims 8 8 n) 8 8 imageP) [0x41]
def statePo : State := withMsg (storePix (dims 7 9 1) 7 9 imagePo) [0x6B]
/-- The 6 × 10 image of V24, empty message. -/
def state24 : State := storePix (dims 6 10 0) 6 10 fun r c => 10 * r + c

theorem dimsP (n : Nat) : DimsAccepted (stateP n) :=
  ⟨(by decide : 1 ≤ 8), (by decide : 8 ≤ 512), (by decide : 1 ≤ 8), (by decide : 8 ≤ 512)⟩

/-! ## Well-formedness: each check refuses an ill-formed term -/

/-- R90: a bit of 31:4 is set. -/
theorem test_zero_field_refused : zeroFieldOk 0x00000010 = false ∧ zeroFieldOk 0x80000001 = false ∧
    wellFormedWord 0x00000010 = false := by decide
/-- R92: operation codes 0x7 and 0xF. -/
theorem test_op_field_refused : opFieldOk 0x7 = false ∧ opFieldOk 0xF = false ∧ wellFormedWord 0x7 = false := by decide
theorem test_legal_word : wellFormedWord 0x6 = true ∧ Instr.wellFormed .extract = true := by decide
/-- R6: an odd, too small or too large MAXH or MAXW, and a CW outside 11 to 32. -/
theorem test_illegal_sizes_refused : legalSizes 511 512 16 = false ∧ legalSizes 0 512 16 = false ∧
    legalSizes 1026 512 16 = false ∧ legalSizes 512 511 16 = false ∧ legalSizes 512 0 16 = false ∧
    legalSizes 512 1026 16 = false ∧ legalSizes 512 512 10 = false ∧ legalSizes 512 512 33 = false ∧
    legalSizes 2 1024 11 = true := by decide

/-! ## Decoding, from the words of R91's table and of V31 -/

theorem test_decode_nop : decode 0b00000000000000000000000000000000 = .ok .nop := by decide
theorem test_decode_fwd : decode 0b00000000000000000000000000000001 = .ok .fwd := by decide
theorem test_decode_inv : decode 0b00000000000000000000000000000010 = .ok .inv := by decide
theorem test_decode_splice : decode 0b00000000000000000000000000000011 = .ok .splice := by decide
theorem test_decode_unsplice : decode 0b00000000000000000000000000000100 = .ok .unsplice := by decide
theorem test_decode_embed : decode 0b00000000000000000000000000000101 = .ok .embed := by decide
theorem test_decode_extract : decode 0b00000000000000000000000000000110 = .ok .extract := by decide
theorem test_decode_illegal : decode 0x7 = .error (.reservedOp 0x7) ∧ decode 0x10 = .error (.reservedBits 0x10) ∧
    decode 0x80000001 = .error (.reservedBits 0x80000001) ∧ decode 0xFFFFFFFF = .error (.reservedBits 0xFFFFFFFF) := by
  decide
theorem test_decode_table_word : decodeTableWord 32 5 = some .embed ∧ decodeTableWord 32 8 = none ∧
    decodeTableWord 64 5 = none := by decide

/-! ## Arithmetic (V1 to V3, V12 to V14) -/

theorem test_fdiv2 : fdiv2 (-1) = -1 ∧ fdiv2 (-3) = -2 ∧ fdiv2 (-509) = -255 ∧ fdiv2 3 = 1 ∧ mod2 (-255) = 1 := by decide
theorem test_lsb : lsb (-3) = true ∧ setlsb (-3) false = -4 ∧ setlsb (-2) true = -1 ∧ setlsb 255 false = 254 ∧
    setlsb (-32768) true = -32767 := by decide
theorem test_bitstream : bitstream [0x41] =
    [false, true, false, false, false, false, false, true] ++ List.replicate 8 false := by decide
theorem test_decode_groups : decodeGroups (List.replicate 7 false) = ([], false) ∧
    decodeGroups (byteBits 0x41 ++ List.replicate 7 false) = ([0x41], false) ∧
    decodeGroups (byteBits 0x48 ++ byteBits 0x69 ++ byteBits 0 ++ byteBits 0xFF) = ([0x48, 0x69], true) := by decide

/-! ## The commands, one step each -/

/-- V32: after an INV that clipped four cells, NOP clears the result group. -/
theorem test_nop_clears : results (after .nop (after .inv (quad 256 0 0 0))) = [0, 0, 0, 0] := by decide
/-- V4, last row: the block on which a rows-first transform would differ. -/
theorem test_fwd_block : (let t := after .fwd { dims 2 2 0 with pix := [(0, 0), (1, 0), (1024, 1), (1025, 3)] }
    [coefAt t .ll 0 0, coefAt t .lh 0 0, coefAt t .hl 0 0, coefAt t .hh 0 0]) = [1, -2, -1, 2] := by decide
/-- V10: an odd height is padded by reading. -/
theorem test_fwd_odd_height : (let t := after .fwd { dims 5 2 0 with pix := rows [[1, 2], [3, 4], [5, 6], [7, 8], [9, 11]] }
    (liveCells t .ll, liveCells t .lh, liveCells t .hl, liveCells t .hh)) =
    ([2, 6, 10], [-2, -2, 0], [-1, -1, -2], [0, 0, 0]) := by decide
/-- V16 with V5's row 100, 301, -7, 510. -/
theorem test_inv_clips : livePix (after .inv (quad 100 301 (-7) 510)) = [255, 127, 0, 81] ∧
    results (after .inv (quad 100 301 (-7) 510)) = [0x200, 0, 0, 2] := by decide
/-- V11: no wrap for the extremes of 16-bit cells. -/
theorem test_inv_extremes : livePix (after .inv (quad (-32768) 32767 32767 32767)) = [255, 0, 0, 0] := by decide
/-- V29: the bitstream ends in the middle of a row. -/
theorem test_splice_row_major :
    liveCells (after .splice (withLL (dims 6 10 0) [[0, 1, 2, 3, 4], [5, 6, 7, 8, 9], [10, 11, 12, 13, 14]])) .ll =
    [0, 0, 2, 2, 4, 4, 6, 6, 8, 9, 10, 11, 12, 13, 14] := by decide +kernel
/-- V28: negative coefficients. -/
theorem test_splice_negative : liveCells (after .splice (withMsg (withLL (dims 8 8 1)
    [[-1, -2, -3, -4], [5, -6, 7, -8], [0, 0, 0, 0], [1, 1, 1, 1]]) [0xA5])) .ll =
    [-1, -2, -3, -4, 4, -5, 6, -7, 0, 0, 0, 0, 0, 0, 0, 0] := by decide +kernel
/-- V19, fifth row: the last seven bits are never examined. -/
theorem test_unsplice_short : (let t := after .unsplice (withLL (dims 6 10 0)
      [[0, 1, 2, 3, 4], [5, 6, 7, 8, 9], [10, 11, 12, 13, 14]])
    (t.msg, t.msglen, results t)) = ([(0, 0x55)], 1, [0x50, 0, 0, 0]) := by decide +kernel
/-- V19, first row: an immediate terminator. -/
theorem test_unsplice_empty : (let t := after .unsplice (withLL (dims 4 8 9) [[2, 4, 6, 8], [10, 12, 14, 16]])
    (t.msg, t.msglen, results t)) = ([], 0, [0x150, 0, 0, 0]) := by decide +kernel
/-- V24: an embed with one clipped cell. -/
theorem test_embed_clips : liveCells (after .embed state24) .ll =
    [4, 6, 8, 10, 12, 24, 26, 28, 31, 33, 45, 47, 49, 51, 53] ∧ results (after .embed state24) = [0x200, 0, 0, 1] := by
  decide +kernel
/-- V21: the stego image's first and last rows. -/
theorem test_embed_stego : (livePix (after .embed (stateP 1))).take 8 = [39, 50, 63, 74, 83, 94, 106, 117] ∧
    (livePix (after .embed (stateP 1))).drop 56 = [99, 145, 190, 36, 83, 129, 174, 20] := by decide +kernel
/-- V22: an image that holds no message. -/
theorem test_extract_no_message : (let t := after .extract (stateP 1)
    (t.msg, t.msglen, results t)) = ([(0, 0xA5), (1, 0xA5)], 2, [0x50, 0, 0, 0]) := by decide +kernel
/-- V21: what EMBED hid. -/
theorem test_extract_message : (let t := after .extract (after .embed (stateP 1))
    (t.msg, t.msglen, results t)) = ([(0, 0x41)], 1, [0x100, 0, 0, 0]) := by decide +kernel

/-! ## Errors (V17, V18, V30, V31) -/

theorem test_bad_dim : results (after .inv (dims 513 8 0)) = [0x20, 513, 8, 0] ∧
    results (after .extract (dims 8 65535 0)) = [0x20, 8, 65535, 0] ∧
    results (after .splice (dims 0 8 9999)) = [0x20, 0, 8, 0] := by decide
theorem test_capacity : results (after .splice (dims 512 512 8192)) = [0x30, 65544, 65536, 0] ∧
    results (after .embed (dims 8 8 16777215)) = [0x30, 0x08000000, 16, 0] := by decide
theorem test_nul : results (after .splice (withMsg (dims 8 16 3) [0x41, 0, 0])) = [0x40, 1, 0, 0] := by decide
theorem test_illegal_word : step { State.reset with pend := some 0x80000001, script := [.engine] } =
    .next { State.reset with err := 1, errinfo0 := 0x80000001 } := rfl

/-! ## The host port (V34, V35, V37, V38) and the machine -/

theorem test_addresses : cellOfAddr Config.reference 0x100C03 = some (.pix 3 3) ∧
    cellOfAddr Config.reference 0x23FCFF = some (.coef .ll 255 255) ∧
    cellOfAddr Config.reference 0x601FFF = some (.msg 8191) ∧ cellOfAddr Config.reference 0xD = some (.reg .errinfo1) ∧
    cellOfAddr Config.reference 0x500401 = some (.coef .hh 1 1) ∧ addrOf (.pix 511 511) = 0x17FDFF := by decide
theorem test_invalid_addresses : [0x00000E, 0x180000, 0x100200, 0x240000, 0x200100, 0x602000, 0x700000].all
    (fun a => (cellOfAddr Config.reference (BitVec.ofNat 24 a)).isNone) = true := by decide
theorem test_write_truncates : (hostRead (hostWrite State.reset 0x200000 0x00018000) 0x200000).2 = 0xFFFF8000 ∧
    (hostRead (hostWrite State.reset 0x100000 0x00012345) 0x100000).2 = 0x45 ∧
    (hostRead (hostWrite State.reset 4 0xFF000001) 10).2 = 0x10 := by decide
theorem test_busy : (let s := hostWrite State.reset 0 2
    ((hostRead s 1).2, (hostRead s 2).2, (hostRead s 2).1.accerr, (hostWrite s 0 1).pend)) = (1, 0, true, some 2) := by
  decide
/-- P1's shape: a write of CMD, a poll that sees BUSY, the engine's step, a poll that does not. -/
theorem test_run : (let s := { State.reset with script := scriptRun .nop 1 }
    ((Sys2Proof.core.run 2 s, Sys2Proof.core.run 4 s) : Host.Outcome State Fault Refusal × Host.Outcome State Fault Refusal)) =
    (.next { State.reset with pend := some 0, dr := 1, script := [.engine, .read 1] }, .next State.reset) := rfl

/-! ## Witnesses: the hypotheses of the statements can be met -/

theorem witness_StepRunsThePendingCommand : ∃ s : State, s.script = [] ∧ s.pend = some 0x1 ∧ decode 0x1 = .ok .fwd ∧
    Instr.fwd.wellFormed = true := ⟨{ State.reset with pend := some 1 }, rfl, rfl, rfl, rfl⟩
theorem witness_StepRunsThePendingCommand_engine : ∃ s : State, s.script.head? = some .engine ∧ s.pend = some 0x6 ∧
    decode 0x6 = .ok .extract := ⟨{ State.reset with pend := some 6, script := [.engine, .reset] }, rfl, rfl, rfl⟩
theorem witness_FetchWordRunsNext : exec .fwd { stateP 1 with pend := some (encode .fwd) } =
    .next (after .fwd { stateP 1 with pend := some (encode .fwd) }) := exec_after _ _
theorem witness_IllegalWordFails : (∀ i, (0x7 : Word) ≠ encode i) ∧ (∀ i, (0xFFFFFFFF : Word) ≠ encode i) ∧
    (∃ s : State, s.script.head? = some .engine ∧ s.pend = some 0x7) ∧ ∃ s : State, s.script = [] ∧ s.pend = some 0x7 :=
  ⟨by intro i; cases i <;> decide, by intro i; cases i <;> decide,
    ⟨{ State.reset with pend := some 7, script := [.engine] }, rfl, rfl⟩, { State.reset with pend := some 7 }, rfl, rfl⟩
/-- The engine's turn first, after two events of the host (a reset coming later), and after the last event. -/
theorem witness_PendingCommandCompletes :
    ∃ s1 s2 s3 : State, (s1.pend = some 1 ∧ s1.script.takeWhile (· ≠ .engine) = []) ∧
      (s2.pend = some 7 ∧ s2.script.takeWhile (· ≠ .engine) = [.read 1, .write 0 0] ∧ .reset ∈ s2.script) ∧
      (s3.pend = some 0 ∧ s3.script.takeWhile (· ≠ .engine) = s3.script ∧ s3.script = [.read 2]) :=
  ⟨{ State.reset with pend := some 1, script := [.engine, .reset] },
    { State.reset with pend := some 7, script := [.read 1, .write 0 0, .engine, .reset] },
    { State.reset with pend := some 0, script := [.read 2] }, by decide, by decide, by decide⟩
theorem witness_DecodeAndEncodeAgree : ∀ i, (0x10 : Word) ≠ encode i := by intro i; cases i <;> decide
theorem witness_IdleEngineRetainsState : (State.reset.script = [] ∧ State.reset.pend = none) ∧
    ∃ s : State, s.script.head? = some .engine ∧ s.pend = none :=
  ⟨⟨rfl, rfl⟩, { State.reset with script := [.engine] }, rfl, rfl⟩
theorem witness_StepTakesTheNextEvent : ∃ s1 s2 s3 : State, s1.script = .read 1 :: [] ∧ s2.script = .write 0 1 :: [] ∧
    s3.script = .reset :: [.engine] := ⟨{ State.reset with script := [.read 1] },
      { State.reset with script := [.write 0 1] }, { State.reset with script := [.reset, .engine] }, rfl, rfl, rfl⟩
/-- The corners of each space, and the first cells beyond them. -/
theorem witness_AddressesNameCells : cellExists Config.reference (.pix 511 511) = true ∧
    cellExists Config.reference (.pix 512 0) = false ∧ cellExists Config.reference (.coef .ll 255 255) = true ∧
    cellExists Config.reference (.coef .lh 255 0) = true ∧ cellExists Config.reference (.coef .hl 0 255) = true ∧
    cellExists Config.reference (.coef .hh 0 256) = false ∧ cellExists Config.reference (.coef .hh 0 0) = true ∧
    cellExists Config.reference (.msg 8191) = true ∧ cellExists Config.reference (.msg 8192) = false ∧
    cellOfAddr Config.reference 0x10FFFF = none ∧ cellOfAddr Config.reference 0x17FDFF = some (.pix 511 511) := by decide
theorem witness_InvalidAddressSetsAccErr : cellOfAddr State.reset.cfg 0x0E = none ∧
    cellOfAddr State.reset.cfg 0x700000 = none ∧ (cellOfAddr State.reset.cfg 0x0D).isSome = true := by decide
theorem witness_HostReadReturnsCell : (hostWrite State.reset 0 1).pend ≠ none ∧ State.reset.pend = none ∧
    cellOfAddr State.reset.cfg 0x180000 = none ∧ cellOfAddr State.reset.cfg 0x17FDFF = some (.pix 511 511) ∧
    cellOfAddr State.reset.cfg 0x2FFFFF = none ∧ cellOfAddr State.reset.cfg 0x300000 = some (.coef .lh 0 0) ∧
    cellOfAddr State.reset.cfg 0x601FFF = some (.msg 8191) ∧ cellOfAddr State.reset.cfg 0 = some (.reg .cmd) := by decide
theorem witness_RegisterReadValues : State.reset.pend = none ∧ (dims 65535 65535 16777215).pend = none := ⟨rfl, rfl⟩
theorem witness_HostWriteChangesOneCell : State.reset.pend = none ∧ (hostWrite State.reset 0 1).pend ≠ none ∧
    cellOfAddr State.reset.cfg 0x00000E = none ∧ cellOfAddr State.reset.cfg 0x100000 = some (.pix 0 0) ∧
    cellOfAddr State.reset.cfg 0x53FCFF = some (.coef .hh 255 255) ∧ cellOfAddr State.reset.cfg 0x600000 = some (.msg 0) ∧
    (5 ≤ (0x5 : Addr).toNat ∧ (0x5 : Addr).toNat ≤ 13) ∧ (5 ≤ (0xD : Addr).toNat ∧ (0xD : Addr).toNat ≤ 13) := by decide
theorem witness_WrittenCellReadsBack : State.reset.pend = none ∧
    cellOfAddr State.reset.cfg 0x100000 = some (.pix 0 0) ∧ cellOfAddr State.reset.cfg 0x400401 = some (.coef .hl 1 1) ∧
    cellOfAddr State.reset.cfg 0x600001 = some (.msg 1) := by decide
theorem witness_BusyRuleProtectsTheCommand : (hostWrite State.reset 0 0xFFFFFFFF).pend = some 0xFFFFFFFF ∧
    (0 : Addr) ≠ 1 := by decide
theorem witness_ViewsAreExact : State.reset.pend = none ∧ (hostWrite State.reset 0 1).pend ≠ none ∧
    (5 ≤ (0x5 : Addr).toNat ∧ (0x5 : Addr).toNat ≤ 10) ∧ (5 ≤ (0xA : Addr).toNat ∧ (0xA : Addr).toNat ≤ 10) := by decide
theorem witness_StatusWordFields : State.reset.pend = none := rfl
theorem witness_AccErrIsSticky : ∃ s1 s2 s3 s4 : State, (s1.accerr = true ∧ s1.script.head? ≠ some .reset) ∧
    (s2.script.head? = some (.read 0xE) ∧ s2.pend = none ∧ cellOfAddr s2.cfg 0xE = none) ∧
    (s3.script.head? = some (.read 0) ∧ s3.pend ≠ none ∧ (0 : Addr) ≠ 1) ∧
    (s4.script.head? = some (.write 1 0) ∧ s4.pend ≠ none) :=
  ⟨{ State.reset with accerr := true }, { State.reset with script := [.read 0xE] },
    { State.reset with pend := some 0, script := [.read 0] }, { State.reset with pend := some 0, script := [.write 1 0] },
    by decide, by decide, by decide, by decide⟩
theorem witness_PerfectReconstruction : 1 ≤ 1 ∧ ∀ r c : Nat, r < 1 → c < 1 → 0 ≤ imageP r c ∧ imageP r c ≤ 255 := by
  refine ⟨Nat.le_refl _, fun r c hr hc => ?_⟩
  obtain rfl : r = 0 := by omega
  obtain rfl : c = 0 := by omega
  decide
theorem witness_ForwardAfterInverse : (inv2d 1 1 ⟨fun _ _ => 25, fun _ _ => -20, fun _ _ => -10, fun _ _ => 0⟩).2 = 0 ∧
    (inv2d 1 1 ⟨fun _ _ => 256, fun _ _ => 0, fun _ _ => 0, fun _ _ => 0⟩).2 = 4 := by decide
theorem witness_ForwardRanges : ∃ P : Mat, ∀ r c : Nat, r < 3 → c < 3 → 0 ≤ P r c ∧ P r c ≤ 255 :=
  ⟨fun _ _ => 255, fun _ _ _ _ => ⟨(by decide : (0 : Int) ≤ 255), (by decide : (255 : Int) ≤ 255)⟩⟩
theorem witness_InverseRanges : 11 ≤ 11 ∧ (1024 : Int) = 2 ^ (11 - 1) ∧ ∃ X : Subbands, ∀ k j : Nat,
    (-1024 ≤ X.ll k j ∧ X.ll k j ≤ 1024 - 1) ∧ (-1024 ≤ X.lh k j ∧ X.lh k j ≤ 1024 - 1) ∧
    (-1024 ≤ X.hl k j ∧ X.hl k j ≤ 1024 - 1) ∧ (-1024 ≤ X.hh k j ∧ X.hh k j ≤ 1024 - 1) :=
  ⟨by decide, by decide, ⟨fun _ _ => -1024, fun _ _ => 1023, fun _ _ => -1024, fun _ _ => 1023⟩, fun _ _ => by
    dsimp only
    omega⟩
theorem witness_ReplicatedEdges : 3 % 2 = 1 ∧ ∃ (X : Subbands) (P : Mat), (∀ j, X.lh 0 j = 0 ∧ X.hh 0 j = 0) ∧
    (∀ k, X.hl k 0 = 0 ∧ X.hh k 0 = 0) ∧ (∀ c, P 2 c = P 3 c) ∧ (∀ r, P r 2 = P r 3) ∧ 2 * 1 < 3 :=
  ⟨rfl, ⟨fun _ _ => 7, fun k _ => k, fun _ j => j, fun _ _ => 0⟩, fun r c => min r 2 * min c 2, fun _ => ⟨rfl, rfl⟩,
    fun _ => ⟨rfl, rfl⟩, fun _ => rfl, fun _ => rfl, by decide⟩
theorem witness_SetLsbReplacesBitZero : 11 ≤ 11 ∧ -(2 ^ (11 - 1) : Int) ≤ -1024 ∧ (-1024 : Int) ≤ 2 ^ (11 - 1) - 1 ∧
    (1023 : Int) ≤ 2 ^ (11 - 1) - 1 := by decide
theorem witness_UnitChangeShiftsBlock : ∃ X Y : Subbands, Y.lh = X.lh ∧ Y.hl = X.hl ∧ Y.hh = X.hh ∧
    Y.ll 0 0 = X.ll 0 0 + 1 ∧ ∀ k j, (k, j) ≠ (0, 0) → Y.ll k j = X.ll k j :=
  ⟨⟨fun _ _ => 7, fun _ _ => 1, fun _ _ => 2, fun _ _ => 3⟩,
    ⟨fun k j => if (k, j) = (0, 0) then 8 else 7, fun _ _ => 1, fun _ _ => 2, fun _ _ => 3⟩, rfl, rfl, rfl, rfl,
    fun _ _ h => if_neg h⟩
theorem witness_BitstreamElements : ([0x41, 0x42] : List Byte)[15 / 8]? = some 0x42 ∧ 8 * 2 ≤ 16 ∧ 23 < 8 * 2 + 8 := by
  decide
theorem witness_DecodeGroupsDelivers : (decodeGroups (bitstream [0x41])).2 = true ∧
    (decodeGroups (byteBits 0x41)).2 = false ∧ 0 < (decodeGroups (byteBits 0x41)).1.length := by decide
theorem witness_BitstreamRoundTrip : ∀ v ∈ ([0x41, 0xFF] : List Byte), v ≠ 0 := by decide
/-- The smallest and the largest accepted sizes, and the first refused ones. -/
theorem witness_DimsAccepted : DimsAccepted (dims 1 1 0) ∧ DimsAccepted (dims 512 512 0) ∧ DimsAccepted (dims 511 1 0) ∧
    ¬DimsAccepted (dims 0 1 0) ∧ ¬DimsAccepted (dims 513 1 0) ∧ ¬DimsAccepted (dims 1 0 0) ∧
    ¬DimsAccepted (dims 1 513 0) := by
  simp only [← dimOk_iff]
  decide
/-- FWD, INV, UNSPLICE and EXTRACT: accepted dimensions, a cell of the live region, one outside it, and refused ones. -/
theorem witness_transform_statements : DimsAccepted (stateP 1) ∧ 3 < subh (stateP 1) ∧ 3 < subw (stateP 1) ∧
    ¬(4 < subh (stateP 1)) ∧ 7 < padh (stateP 1) ∧ ¬DimsAccepted State.reset :=
  ⟨dimsP 1, by decide, by decide, by decide, by decide, by rw [← dimOk_iff]; decide⟩
/-- SPLICE and EMBED: a message of exactly the capacity; one byte more; a zero byte. -/
theorem witness_payload_statements : (DimsAccepted (stateP 1) ∧ MessageFits (stateP 1) ∧ NoZeroByte (stateP 1)) ∧
    (DimsAccepted (stateP 2) ∧ ¬MessageFits (stateP 2)) ∧
    (MessageFits (withMsg (stateP 1) [0]) ∧ 0 < (stateP 1).msglen.toNat ∧ msgAt (withMsg (stateP 1) [0]) 0 = 0) ∧
    (bitstream ((List.range (stateP 1).msglen.toNat).map (msgAt (stateP 1))))[15]? = some false := by
  refine ⟨⟨dimsP 1, ?_, ?_⟩, ⟨dimsP 2, ?_⟩, ⟨?_, by decide, by decide⟩, by decide +kernel⟩
  · simp only [MessageFits]
    decide
  · rw [← firstNul_none]
    decide
  · simp only [MessageFits]
    decide
  · simp only [MessageFits]
    decide
theorem witness_FwdStoresBlockTransforms : DimsAccepted (stateP 1) ∧ 3 < subh (stateP 1) ∧ 3 < subw (stateP 1) ∧
    4 < 1024 ∧ ¬(4 < subw (stateP 1)) ∧ ¬DimsAccepted State.reset :=
  ⟨dimsP 1, by decide, by decide, by decide, by decide, by rw [← dimOk_iff]; decide⟩
theorem witness_InvStoresClippedReconstruction : DimsAccepted (quad 100 301 (-7) 510) ∧ 1 < padh (quad 100 301 (-7) 510) ∧
    1 < padw (quad 100 301 (-7) 510) ∧ ¬(2 < padw (quad 100 301 (-7) 510)) ∧ ¬DimsAccepted State.reset :=
  ⟨by rw [← dimOk_iff]; decide, by decide, by decide, by decide, by rw [← dimOk_iff]; decide⟩
theorem witness_SpliceReplacesLowBits : (DimsAccepted (stateP 1) ∧ MessageFits (stateP 1) ∧ NoZeroByte (stateP 1)) ∧
    15 < 8 * (stateP 1).msglen.toNat + 8 ∧ ¬DimsAccepted State.reset ∧ ¬MessageFits (stateP 2) ∧
    msgAt (withMsg (stateP 1) [0]) 0 = 0 :=
  ⟨witness_payload_statements.1, by decide, by rw [← dimOk_iff]; decide, witness_payload_statements.2.1.2, by decide⟩
theorem witness_EmbedStoresStegoImage : (DimsAccepted (stateP 1) ∧ MessageFits (stateP 1) ∧ NoZeroByte (stateP 1)) ∧
    3 < subh (stateP 1) ∧ 3 < subw (stateP 1) ∧ 7 < padw (stateP 1) ∧ ¬(8 < padw (stateP 1)) ∧
    ¬DimsAccepted State.reset ∧ ¬MessageFits (stateP 2) ∧ msgAt (withMsg (stateP 1) [0]) 0 = 0 :=
  ⟨witness_payload_statements.1, by decide, by decide, by decide, by decide, by rw [← dimOk_iff]; decide,
    witness_payload_statements.2.1.2, by decide⟩
theorem witness_UnspliceDecodesLowBits : DimsAccepted (dims 4 8 0) ∧ ¬DimsAccepted State.reset ∧
    (decodeGroups (llBits 8 4 (coefAt (withLL (dims 4 8 0) [[6, 7, 4, 4], [2, 2, 0, 1]]) .ll))).1 = [0x41] :=
  ⟨by rw [← dimOk_iff]; decide, by rw [← dimOk_iff]; decide, by decide⟩
theorem witness_ExtractDecodesImage : DimsAccepted (stateP 1) ∧ ¬DimsAccepted State.reset ∧
    (after .extract (stateP 1)).msglen.toNat = 2 :=
  ⟨dimsP 1, by rw [← dimOk_iff]; decide, by decide +kernel⟩
theorem witness_AcceptedDimensionsFit : DimsAccepted (dims 511 1 0) := by
  rw [← dimOk_iff]
  decide
theorem witness_EmbedIsFwdSpliceInv : (stateP 1).ll.wf ∧ (after .embed (stateP 1)).err = 0 ∧
    (stateP 2).ll.wf ∧ (after .embed (stateP 2)).err ≠ 0 ∧ exec .embed (stateP 2) = .next (after .embed (stateP 2)) :=
  ⟨List.Pairwise.nil, rfl, List.Pairwise.nil, by decide, exec_after _ _⟩
theorem witness_ExtractIsFwdUnsplice : exec .extract (stateP 1) = .next (after .extract (stateP 1)) := exec_after _ _
theorem witness_InvAfterFwdRestoresImage : DimsAccepted (stateP 1) ∧
    exec .fwd (stateP 1) = .next (after .fwd (stateP 1)) := ⟨dimsP 1, exec_after _ _⟩
theorem witness_SpliceThenUnsplice : exec .splice (stateP 1) = .next (after .splice (stateP 1)) ∧
    (after .splice (stateP 1)).err = 0 ∧ (after .splice (stateP 0)).err = 0 ∧ ∃ u : State,
      u.cfg = (after .splice (stateP 1)).cfg ∧ u.imgh = (after .splice (stateP 1)).imgh ∧
      u.imgw = (after .splice (stateP 1)).imgw ∧ u.ll = (after .splice (stateP 1)).ll :=
  ⟨exec_after _ _, by decide +kernel, by decide +kernel, _, rfl, rfl, rfl, rfl⟩
/-- Both ways to choose the size: unchanged, and (after an embed into the odd-sized image of V23) padded. -/
theorem witness_EmbedThenExtract : exec .embed statePo = .next (after .embed statePo) ∧ (after .embed statePo).err = 0 ∧
    (after .embed statePo).clipcnt = 0 ∧ 1 ≤ statePo.msglen.toNat ∧ ∃ u1 u2 : State,
      (u1.cfg = (after .embed statePo).cfg ∧ u1.pix = (after .embed statePo).pix ∧
        u1.imgh.toNat = statePo.imgh.toNat ∧ u1.imgw.toNat = statePo.imgw.toNat) ∧
      (u2.cfg = (after .embed statePo).cfg ∧ u2.pix = (after .embed statePo).pix ∧
        u2.imgh.toNat = padh statePo ∧ u2.imgw.toNat = padw statePo) :=
  ⟨exec_after _ _, by decide +kernel, by decide +kernel, by decide, after .embed statePo,
    { after .embed statePo with imgh := 8, imgw := 10 }, by decide +kernel, by decide +kernel⟩
theorem witness_ExtractReadsOnlyTheImage : ∃ s1 s2 : State, s1.cfg = s2.cfg ∧ s1.imgh = s2.imgh ∧ s1.imgw = s2.imgw ∧
    s1.msglen ≠ s2.msglen ∧ (∀ r c, pixAt s1 r c = pixAt s2 r c) ∧ DimsAccepted s1 :=
  ⟨stateP 1, stateP 9, rfl, rfl, rfl, by decide, fun _ _ => rfl, dimsP 1⟩
theorem witness_EmbedWithoutExtremePixelsNeverClips : exec .embed { dims 1 16 0 with pix := rows [[1, 254, 7, 7, 7, 7, 7, 7, 7, 7, 7, 7, 7, 7, 7, 7]] } =
      .next (after .embed { dims 1 16 0 with pix := rows [[1, 254, 7, 7, 7, 7, 7, 7, 7, 7, 7, 7, 7, 7, 7, 7]] }) ∧
    ∀ c, c < 16 → pixAt { dims 1 16 0 with pix := rows [[1, 254, 7, 7, 7, 7, 7, 7, 7, 7, 7, 7, 7, 7, 7, 7]] } 0 c ≠ 0 ∧
      pixAt { dims 1 16 0 with pix := rows [[1, 254, 7, 7, 7, 7, 7, 7, 7, 7, 7, 7, 7, 7, 7, 7]] } 0 c ≠ 255 :=
  ⟨exec_after _ _, by decide +kernel⟩
theorem witness_EmbedShiftsEachBlock : exec .embed (stateP 1) = .next (after .embed (stateP 1)) ∧
    (after .embed (stateP 1)).err = 0 := ⟨exec_after _ _, rfl⟩
theorem witness_StegoEdgesStayReplicated : (after .embed statePo).err = 0 ∧ statePo.imgh.toNat % 2 = 1 ∧
    statePo.imgw.toNat % 2 = 1 ∧ 9 < padw statePo ∧ 7 < padh statePo := by decide +kernel
theorem witness_BadDimAborts : (dims 0 8 0).imgh.toNat = 0 ∧ (dims 513 8 0).cfg.maxh < (dims 513 8 0).imgh.toNat ∧
    (dims 8 0 0).imgw.toNat = 0 ∧ (dims 8 513 0).cfg.maxw < (dims 8 513 0).imgw.toNat ∧ Instr.fwd ≠ .nop := by decide
theorem witness_CapacityExceededAborts : DimsAccepted (dims 6 10 1) ∧
    subh (dims 6 10 1) * subw (dims 6 10 1) < 8 * (dims 6 10 1).msglen.toNat + 8 :=
  ⟨by rw [← dimOk_iff]; decide, by decide⟩
theorem witness_NulInPayloadAborts : DimsAccepted (withMsg (dims 8 16 3) [0x41, 0, 0]) ∧
    MessageFits (withMsg (dims 8 16 3) [0x41, 0, 0]) ∧ msgAt (withMsg (dims 8 16 3) [0x41, 0, 0]) 1 = 0 ∧
    ∀ q, q < 1 → msgAt (withMsg (dims 8 16 3) [0x41, 0, 0]) q ≠ 0 :=
  ⟨by rw [← dimOk_iff]; decide, by simp only [MessageFits]; decide, by decide, by decide⟩
/-- One aborting error of each code. -/
theorem witness_AbortingErrorLeavesData : execWord 7 State.reset = .next (fail .illegalCommand 7 0 State.reset) ∧
    (fail .illegalCommand 7 0 State.reset).err = 1 ∧ (after .fwd State.reset).err = 2 ∧
    (after .splice (dims 6 10 1)).err = 3 ∧ (after .embed (withMsg (dims 8 8 1) [0])).err = 4 := by
  refine ⟨rfl, rfl, by decide, by decide, by decide⟩
theorem witness_ResultGroupDescribesOneCommand : execWord 1 State.reset = .next (after .fwd State.reset) ∧
    (after .fwd State.reset).err ≠ 0 ∧ (after .fwd State.reset).err ≠ 5 ∧ (after .nop State.reset).err = 0 ∧
    (after .unsplice (withLL (dims 4 8 0) [[2, 4, 6, 8], [10, 12, 14, 16]])).err = 5 :=
  ⟨rfl, by decide, by decide, rfl, by decide +kernel⟩
theorem witness_NoPayloadFoundCondition : DimsAccepted (stateP 1) ∧ (after .extract (stateP 1)).err = 5 ∧
    (after .extract (after .embed (stateP 1))).err = 0 := ⟨dimsP 1, by decide +kernel, by decide +kernel⟩
theorem witness_CommandsWriteOnlyTheirData : exec .inv (stateP 1) = .next (after .inv (stateP 1)) := exec_after _ _
/-- The least such MSGLEN of the reference configuration, and MSGLEN = 0 of a configuration with no message cell. -/
theorem witness_OversizedMessageNeverFits : DimsAccepted (dims 512 512 8192) ∧
    msgn (dims 512 512 8192).cfg ≤ (dims 512 512 8192).msglen.toNat ∧
    ∃ s : State, DimsAccepted s ∧ s.msglen = 0 ∧ msgn s.cfg ≤ s.msglen.toNat :=
  ⟨by rw [← dimOk_iff]; decide, by decide, { dims 2 2 0 with cfg := ⟨2, 2, 11, by decide⟩ },
    by rw [← dimOk_iff]; decide, by decide, by decide⟩
theorem witness_ResetEventAbandonsEverything : ∃ s : State, s.script = .reset :: [] ∧ s.pend = some 5 ∧ s.accerr = true :=
  ⟨{ State.reset with script := [.reset], pend := some 5, accerr := true }, rfl, rfl, rfl⟩

/-- A state with cells written, a command pending and a host write to come, that meets the invariant. -/
def written : State :=
  { dims 8 8 1 with pix := [(0, 5), (1024, 6)], ll := [(0, -3), (3, 32767)], msg := [(0, 0x41)], pend := some 5 }

theorem witness_EveryStepKeepsTheInvariant : StateInv written ∧ ∃ t, step written = .next t := by
  refine ⟨?_, _, rfl⟩
  exact {
    pix_wf := by decide
    pix_keys := by unfold keysWithin; decide
    band_wf := by intro b; cases b <;> decide
    band_keys := by intro b; cases b <;> (unfold keysWithin; decide)
    band_range := by intro b; cases b <;> decide
    msg_wf := by decide
    msg_keys := by decide
    err_le := by decide
    info_zero := by decide
    term_err := by decide
    clip_le := by decide
    clip_err := by decide }

end Sys2Proof.Tests
end

section
/-! The family of the state (10_state.md): what a command may write, what it cannot depend on, and the registers and
views as the host sees them. -/

namespace Sys2Proof.Machine

/-! ## What a command leaves alone (R21 to R23, R26, R33, R36 to R38) -/

/-- No effect of a command reaches the dimensions, PEND, ACCERR or the model's own fields: each is a completion of
stores to MSGLEN and the memories. -/
theorem CommandEffect.frame {i : Instr} {s t : State} (h : CommandEffect i s t) :
    t.imgh = s.imgh ∧ t.imgw = s.imgw ∧ t.pend = s.pend ∧ t.accerr = s.accerr ∧ t.cfg = s.cfg ∧ t.epoch = s.epoch ∧
      t.dr = s.dr ∧ t.script = s.script := by
  cases h <;> exact ⟨rfl, rfl, rfl, rfl, rfl, rfl, rfl, rfl⟩

theorem CommandEffect.accerr {i : Instr} {s t : State} (h : CommandEffect i s t) : t.accerr = s.accerr := by
  obtain ⟨-, -, -, hacc, -⟩ := h.frame
  exact hacc

/-- Only the two decoding commands deliver a message. -/
theorem CommandEffect.message_frame {i : Instr} {s t : State} (h : CommandEffect i s t) (hu : i ≠ .unsplice)
    (hx : i ≠ .extract) : t.msglen = s.msglen ∧ t.msg = s.msg := by
  cases h with
  | unsplice => exact absurd rfl hu
  | extract => exact absurd rfl hx
  | _ => exact ⟨rfl, rfl⟩

/-- Only the two commands that end in an inverse transform write pixels. -/
theorem CommandEffect.pix_frame {i : Instr} {s t : State} (h : CommandEffect i s t) (hi : i ≠ .inv)
    (he : i ≠ .embed) : t.pix = s.pix := by
  cases h with
  | inv => exact absurd rfl hi
  | embed => exact absurd rfl he
  | _ => rfl

/-- Only the three commands with a forward transform write the detail subbands. -/
theorem CommandEffect.detail_frame {i : Instr} {s t : State} (h : CommandEffect i s t) (hf : i ≠ .fwd)
    (he : i ≠ .embed) (hx : i ≠ .extract) : t.lh = s.lh ∧ t.hl = s.hl ∧ t.hh = s.hh := by
  cases h with
  | fwd => exact absurd rfl hf
  | embed => exact absurd rfl he
  | extract => exact absurd rfl hx
  | _ => exact ⟨rfl, rfl, rfl⟩

theorem CommandEffect.ll_frame {i : Instr} {s t : State} (h : CommandEffect i s t) (hf : i ≠ .fwd)
    (hs : i ≠ .splice) (he : i ≠ .embed) (hx : i ≠ .extract) : t.ll = s.ll := by
  cases h with
  | fwd => exact absurd rfl hf
  | splice => exact absurd rfl hs
  | embed => exact absurd rfl he
  | extract => exact absurd rfl hx
  | _ => rfl

/-! ## The result group a command writes (R29 to R34, R42) -/

theorem resultCode_payloadError (q : Nat) (f : Bool) :
    resultCode (payloadError q f) = 0 ∨ resultCode (payloadError q f) = 5 := by
  unfold payloadError
  split
  · exact .inr rfl
  · exact .inl rfl

/-- The codes of the aborting errors are neither of the two codes a command can complete with. -/
theorem errCode_of_aborting {e : CmdError} (he : e ≠ .noPayloadFound) : errCode e ≠ 0 ∧ errCode e ≠ 5 := by
  cases e with
  | noPayloadFound => exact absurd rfl he
  | _ => decide

/-- R34: without an aborting error the information registers are 0. -/
theorem CommandEffect.info_zero {i : Instr} {s t : State} (h : CommandEffect i s t)
    (herr : t.err = 0 ∨ t.err = 5) : t.errinfo0 = 0 ∧ t.errinfo1 = 0 := by
  cases h with
  | failed e i0 i1 he =>
    obtain ⟨h0, h5⟩ := errCode_of_aborting (e := e) (by rcases he with rfl | rfl | rfl <;> decide)
    exact (herr.elim h0 h5).elim
  | _ => exact ⟨rfl, rfl⟩

/-- R30: TERM is 0 but after the two decoding commands. -/
theorem CommandEffect.term_false {i : Instr} {s t : State} (h : CommandEffect i s t) (hu : i ≠ .unsplice)
    (hx : i ≠ .extract) : t.term = false := by
  cases h with
  | unsplice => exact absurd rfl hu
  | extract => exact absurd rfl hx
  | _ => rfl

/-- R32: CLIPCNT is 0 but after the two commands that clip. -/
theorem CommandEffect.clipcnt_zero {i : Instr} {s t : State} (h : CommandEffect i s t) (hi : i ≠ .inv)
    (he : i ≠ .embed) : t.clipcnt = 0 := by
  cases h with
  | inv => exact absurd rfl hi
  | embed => exact absurd rfl he
  | _ => rfl

/-- R203: an error other than NoPayloadFound is an aborting one, which writes TERM and CLIPCNT 0. -/
theorem CommandEffect.aborted_flags {i : Instr} {s t : State} (h : CommandEffect i s t) (h0 : t.err ≠ 0)
    (h5 : t.err ≠ 5) : t.term = false ∧ t.clipcnt = 0 := by
  cases h with
  | failed => exact ⟨rfl, rfl⟩
  | unsplice => exact ((resultCode_payloadError _ _).elim h0 h5).elim
  | extract => exact ((resultCode_payloadError _ _).elim h0 h5).elim
  | _ => exact absurd rfl h0

/-! ## The command a word stands for (R91, R97) -/

/-- A word whose bits 31:4 are 0 is its operation code. -/
theorem toNat_opField_of_zeroField {w : Word} (h : zeroField w = 0) : (opField w).toNat = w.toNat := by
  have hz : (zeroField w).toNat = 0 := by rw [h]; rfl
  have := w.isLt
  simp only [zeroField, BitVec.extractLsb'_toNat, Nat.shiftRight_eq_div_pow] at hz
  simp only [opField, BitVec.extractLsb'_toNat, Nat.shiftRight_eq_div_pow]
  omega

theorem instrOfOp_some {n : Nat} {i : Instr} (h : instrOfOp n = some i) : n = (encode i).toNat := by
  unfold instrOfOp at h
  split at h <;> cases h <;> rfl

theorem decode_ok {w : Word} {i : Instr} (h : decode w = .ok i) : w = encode i := by
  unfold decode at h
  split at h
  · rename_i hz
    split at h
    · rename_i j hj
      cases h
      exact BitVec.eq_of_toNat_eq ((toNat_opField_of_zeroField hz).symm.trans (instrOfOp_some hj))
    · cases h
  · cases h

/-- Everything a word's execution can do: an illegal word fails, a command's word has an effect of that command. -/
theorem execWord_effect {w : Word} {s t : State} (h : execWord w s = .next t) :
    t = fail .illegalCommand w 0 s ∨ ∃ i, w = encode i ∧ CommandEffect i s t := by
  unfold execWord at h
  split at h
  · cases h
    exact .inl rfl
  · rename_i i hi
    exact .inr ⟨i, decode_ok hi, exec_effect h⟩

theorem execWord_accerr {w : Word} {s t : State} (h : execWord w s = .next t) : t.accerr = s.accerr := by
  rcases execWord_effect h with rfl | ⟨i, -, hi⟩
  · rfl
  · exact hi.accerr

/-! ## What a command cannot depend on (R33, R42) -/

/-- `s` with the ACCERR and the result group of `u`: the fields of the state no command reads. -/
def withStatusOf (s u : State) : State :=
  { s with err := u.err, term := u.term, clipcnt := u.clipcnt, errinfo0 := u.errinfo0, errinfo1 := u.errinfo1,
           accerr := u.accerr }

/-- `s` with the ACCERR of `u`. -/
def withAccErrOf (s u : State) : State := { s with accerr := u.accerr }

/-- An outcome with its next state changed. -/
def mapNext (f : State → State) : Host.Outcome State Fault Refusal → Host.Outcome State Fault Refusal
  | .next t => .next (f t)
  | .fault r => .fault r
  | .refused r => .refused r

@[simp] theorem mapNext_next (f : State → State) (t : State) : mapNext f (.next t) = .next (f t) := rfl

theorem dimFailure_withStatusOf (s u : State) :
    dimFailure (withStatusOf s u) = (dimFailure s).map fun t => withAccErrOf t u := by
  by_cases hd : DimsAccepted s
  · rw [dimFailure_none.2 hd, show dimFailure (withStatusOf s u) = none from dimFailure_none.2 hd]
    rfl
  · rw [dimFailure_some hd, dimFailure_some (s := withStatusOf s u) hd]
    rfl

theorem payloadFailure_withStatusOf (s u : State) :
    payloadFailure (withStatusOf s u) = (payloadFailure s).map fun t => withAccErrOf t u := by
  have hdim : dimOk (withStatusOf s u) = dimOk s := rfl
  have hcap : cap (withStatusOf s u) = cap s := rfl
  have hlen : bitlen (withStatusOf s u) = bitlen s := rfl
  have hnul : firstNul (withStatusOf s u) = firstNul s := rfl
  rw [payloadFailure, payloadFailure, hdim, hcap, hlen, hnul]
  split
  · rfl
  · split
    · rfl
    · cases firstNul s <;> rfl

/-- A command's checks and stores read neither ACCERR nor the result group, and its completion overwrites the group. -/
theorem exec_withStatusOf (i : Instr) (s u : State) :
    exec i (withStatusOf s u) = mapNext (fun t => withAccErrOf t u) (exec i s) := by
  cases i with
  | nop => rfl
  | fwd =>
    simp only [exec, execFwd, dimFailure_withStatusOf]
    cases dimFailure s <;> rfl
  | inv =>
    simp only [exec, execInv, dimFailure_withStatusOf]
    cases dimFailure s <;> rfl
  | splice =>
    simp only [exec, execSplice, payloadFailure_withStatusOf]
    cases payloadFailure s <;> rfl
  | unsplice =>
    simp only [exec, execUnsplice, dimFailure_withStatusOf]
    cases dimFailure s <;> rfl
  | embed =>
    simp only [exec, execEmbed, payloadFailure_withStatusOf]
    cases payloadFailure s <;> rfl
  | extract =>
    simp only [exec, execExtract, dimFailure_withStatusOf]
    cases dimFailure s <;> rfl

theorem execWord_withStatusOf (w : Word) (s u : State) :
    execWord w (withStatusOf s u) = mapNext (fun t => withAccErrOf t u) (execWord w s) := by
  unfold execWord
  split
  · rfl
  · exact exec_withStatusOf _ s u

/-- Every word answers a next state. -/
theorem execWord_next (w : Word) (s : State) : ∃ t, execWord w s = .next t := by
  unfold execWord
  split
  · exact ⟨_, rfl⟩
  · exact exec_next _ s

/-- R42: with ACCERR as it is, only the result group differs, and no trace of the old one is left. -/
theorem execWord_independent_of_resultGroup {s u : State} (w : Word) (hacc : u.accerr = s.accerr) :
    execWord w (withStatusOf s u) = execWord w s := by
  obtain ⟨t, ht⟩ := execWord_next w s
  have heq : u.accerr = t.accerr := hacc.trans (execWord_accerr ht).symm
  rw [execWord_withStatusOf, ht, mapNext_next, withAccErrOf, heq]

/-! ## ACCERR along a step (R33, R62, R71) -/

/-- A step with an event in the script takes that event. -/
theorem step_of_head {s : State} {e : HostEvent} (h : s.script.head? = some e) :
    step s = eventStep e { s with script := s.script.tail } := by
  obtain ⟨rest, hs⟩ := List.head?_eq_some_iff.1 h
  simp only [step, nextEvent, hs, List.tail_cons]

/-- What the next event of a step is. -/
theorem step_cases (s : State) :
    ∃ e, step s = eventStep e { s with script := s.script.tail } ∧ (s.script.head? = some e ∨ e = .engine) := by
  cases hs : s.script with
  | nil => exact ⟨.engine, by simp only [step, nextEvent, hs, List.tail_nil], .inr rfl⟩
  | cons e rest => exact ⟨e, by rw [← hs, step_of_head (by rw [hs]; rfl)], .inl rfl⟩

/-- A register write goes to PEND, IMGH, IMGW or MSGLEN, if anywhere. -/
@[simp] theorem writeReg_accerr (s : State) (d : Word) (r : RegName) : (writeReg s d r).accerr = s.accerr := by
  cases r <;> rfl

@[simp] theorem writeCell_accerr (s : State) (d : Word) (n : CellName) : (writeCell s d n).accerr = s.accerr := by
  cases n with
  | reg r => exact writeReg_accerr s d r
  | coef b k j => exact setBand_accerr s b _
  | _ => rfl

theorem engineStep_accerr {s t : State} (h : engineStep s = .next t) : t.accerr = s.accerr := by
  cases hp : s.pend with
  | none =>
    rw [engineStep, hp] at h
    cases h
    rfl
  | some w =>
    obtain ⟨v, hv⟩ := execWord_next w s
    rw [engineStep_pending hp hv] at h
    cases h
    exact (completePending_accerr v).trans (execWord_accerr hv)

/-- Every event but the reset input keeps a set ACCERR. -/
theorem eventStep_keeps_accerr {e : HostEvent} {s t : State} (h : eventStep e s = .next t) (he : e ≠ .reset)
    (hs : s.accerr = true) : t.accerr = true := by
  cases e with
  | read a =>
    cases h
    rcases hostRead_cases s a with hr | hr <;> simp [hr, hs]
  | write a d =>
    cases h
    rcases hostWrite_cases s a d with hw | ⟨n, -, -, hw⟩ <;> simp [hw, hs]
  | reset => exact absurd rfl he
  | engine => rw [engineStep_accerr h, hs]

/-- R62, R71: an invalid read, or a read while busy of anything but STATUS, is an access fault. -/
theorem hostRead_of_breach {s : State} {a : Addr}
    (h : s.pend = none ∧ cellOfAddr s.cfg a = none ∨ s.pend ≠ none ∧ a ≠ 1) : hostRead s a = (accessFault s, 0) := by
  rcases h with ⟨hp, hc⟩ | ⟨hp, ha⟩
  · simp [hostRead, busyFlag, hp, hc]
  · have hb : busyFlag s = true := Option.isSome_iff_ne_none.2 hp
    rw [hostRead, if_pos hb]
    exact if_neg ha

/-- R62, R71: an invalid write, or any write while busy, is an access fault. -/
theorem hostWrite_of_breach {s : State} {a : Addr} (d : Word)
    (h : s.pend = none ∧ cellOfAddr s.cfg a = none ∨ s.pend ≠ none) : hostWrite s a d = accessFault s := by
  rcases h with ⟨hp, hc⟩ | hp
  · simp [hostWrite, busyFlag, hp, hc]
  · have hb : busyFlag s = true := Option.isSome_iff_ne_none.2 hp
    rw [hostWrite, if_pos hb]

/-! ## The obligations about commands -/

/-- Settles O53, from the frames of a command's effect. -/
theorem commandsWriteOnlyTheirData : Obligations.CommandsWriteOnlyTheirData := by
  unfold Obligations.CommandsWriteOnlyTheirData
  intro i s t h
  have he := exec_effect h
  obtain ⟨himgh, himgw, hpend, hacc, hcfg, hepoch, hdr, hscript⟩ := he.frame
  exact ⟨himgh, himgw, hpend, hacc, hcfg, hepoch, hdr, hscript, he.message_frame, he.pix_frame, he.detail_frame,
    he.ll_frame⟩

/-- Settles O51: the old result group is overwritten unread, and the new one is read off the command's effect. -/
theorem resultGroupDescribesOneCommand : Obligations.ResultGroupDescribesOneCommand := by
  unfold Obligations.ResultGroupDescribesOneCommand
  refine ⟨fun v s e x y n f => ?_, fun v s t h => ?_⟩
  · exact execWord_independent_of_resultGroup (s := s)
      (u := { s with err := e, errinfo0 := x, errinfo1 := y, term := f, clipcnt := n }) v rfl
  · rcases execWord_effect h with rfl | ⟨i, rfl, hi⟩
    · have hcode : errCode .illegalCommand ≠ 0 ∧ errCode .illegalCommand ≠ 5 := errCode_of_aborting (by decide)
      exact ⟨fun herr => (herr.elim hcode.1 hcode.2).elim, fun _ _ => rfl, fun _ _ => rfl, fun _ _ => ⟨rfl, rfl⟩⟩
    · have of_word : ∀ {j : Instr}, encode i ≠ encode j → i ≠ j := fun hne hij => hne (congrArg encode hij)
      exact ⟨hi.info_zero, fun hu hx => hi.term_false (of_word hu) (of_word hx),
        fun hv he => hi.clipcnt_zero (of_word hv) (of_word he), hi.aborted_flags⟩

/-- Settles O19: the flag along a step event by event, and its independence of the commands. -/
theorem accErrIsSticky : Obligations.AccErrIsSticky := by
  unfold Obligations.AccErrIsSticky
  refine ⟨fun s t h hs hr => ?_, fun s t a h ha hb => ?_, fun s t a d h ha hb => ?_, fun i s t b h => ⟨?_, ?_⟩⟩
  · obtain ⟨e, hstep, he⟩ := step_cases s
    have hne : e ≠ .reset := by
      rintro rfl
      exact he.elim hr (by decide)
    exact eventStep_keeps_accerr (hstep.symm.trans h) hne hs
  · rw [step_of_head ha] at h
    cases h
    exact congrArg (fun p => p.1.accerr) (hostRead_of_breach (s := { s with script := s.script.tail }) hb)
  · rw [step_of_head ha] at h
    cases h
    exact congrArg State.accerr (hostWrite_of_breach (s := { s with script := s.script.tail }) d hb)
  · exact (exec_effect h).accerr
  · have hind := exec_withStatusOf i s { s with accerr := b }
    rw [h, mapNext_next] at hind
    exact hind

end Sys2Proof.Machine
end

section
/-! The registers and views as the host reads and writes them (R24, R28), and the reset state (R40). -/

namespace Sys2Proof.Machine

/-! ## The addresses of the registers (R61) -/

/-- A register's address is valid in every configuration. -/
theorem cellOfAddr_reg (c : Config) (r : RegName) : cellOfAddr c (addrOf (.reg r)) = some (.reg r) := by
  cases r <;> rfl

/-- The addresses 5 to 10 are those of the six views. -/
theorem view_of_addr {a : Addr} (h5 : 5 ≤ a.toNat) (h10 : a.toNat ≤ 10) :
    ∃ r, a = addrOf (.reg r) ∧ (r = .padh ∨ r = .padw ∨ r = .subh ∨ r = .subw ∨ r = .cap ∨ r = .bitlen) := by
  have hcases : a.toNat = 5 ∨ a.toNat = 6 ∨ a.toNat = 7 ∨ a.toNat = 8 ∨ a.toNat = 9 ∨ a.toNat = 10 := by omega
  rcases hcases with h | h | h | h | h | h
  · exact ⟨.padh, BitVec.eq_of_toNat_eq h, by decide⟩
  · exact ⟨.padw, BitVec.eq_of_toNat_eq h, by decide⟩
  · exact ⟨.subh, BitVec.eq_of_toNat_eq h, by decide⟩
  · exact ⟨.subw, BitVec.eq_of_toNat_eq h, by decide⟩
  · exact ⟨.cap, BitVec.eq_of_toNat_eq h, by decide⟩
  · exact ⟨.bitlen, BitVec.eq_of_toNat_eq h, by decide⟩

theorem hostRead_reg {s : State} (hp : s.pend = none) (r : RegName) :
    hostRead s (addrOf (.reg r)) = (s, readReg s r) :=
  hostRead_of_cell hp (cellOfAddr_reg s.cfg r)

theorem hostWrite_reg {s : State} (hp : s.pend = none) (d : Word) (r : RegName) :
    hostWrite s (addrOf (.reg r)) d = writeReg s d r :=
  hostWrite_of_cell hp (cellOfAddr_reg s.cfg r)

/-! ## STATUS (R28) -/

/-- The STATUS word bit by bit, from the lowest field up. -/
theorem getLsbD_statusWord (s : State) (k : Nat) : (statusWord s).getLsbD k =
    if k = 0 then s.pend.isSome else if k < 4 then false else if k < 8 then s.err.getLsbD (k - 4)
    else if k = 8 then s.term else if k = 9 then decide (s.clipcnt ≠ 0) else if k = 16 then s.accerr else false := by
  simp only [statusWord, BitVec.getLsbD_append, busyFlag, clipFlag, BitVec.getLsbD_ofBool, BitVec.getLsbD_zero]
  have fields : k = 0 ∨ (0 < k ∧ k < 4) ∨ (4 ≤ k ∧ k < 8) ∨ k = 8 ∨ k = 9 ∨ (9 < k ∧ k < 16) ∨ k = 16 ∨ 16 < k := by
    omega
  rcases fields with rfl | ⟨_, _⟩ | ⟨_, _⟩ | rfl | rfl | ⟨_, _⟩ | rfl | _ <;>
    simp (disch := omega) only [if_pos, if_neg, if_true, Nat.sub_sub, Nat.sub_self, decide_true, Bool.true_and]

theorem getLsbD_statusWord_reserved {s : State} {k : Nat} (h : (1 ≤ k ∧ k < 4) ∨ (10 ≤ k ∧ k < 16) ∨ 17 ≤ k) :
    (statusWord s).getLsbD k = false := by
  rw [getLsbD_statusWord]
  rcases h with ⟨_, _⟩ | ⟨_, _⟩ | _ <;> simp (disch := omega) only [if_pos, if_neg]

/-- A run of reserved bits reads 0. -/
theorem extractLsb'_statusWord_reserved {s : State} {lo n : Nat}
    (h : ∀ j, j < n → (1 ≤ lo + j ∧ lo + j < 4) ∨ (10 ≤ lo + j ∧ lo + j < 16) ∨ 17 ≤ lo + j) :
    (statusWord s).extractLsb' lo n = 0 := by
  refine BitVec.eq_of_getLsbD_eq fun j hj => ?_
  rw [BitVec.getLsbD_extractLsb', getLsbD_statusWord_reserved (h j hj), Bool.and_false]
  exact BitVec.getLsbD_zero.symm

theorem extractLsb'_statusWord_err (s : State) : (statusWord s).extractLsb' 4 4 = s.err := by
  refine BitVec.eq_of_getLsbD_eq fun j hj => ?_
  rw [BitVec.getLsbD_extractLsb', getLsbD_statusWord, if_neg (by omega), if_neg (by omega), if_pos (by omega),
    Nat.add_sub_cancel_left, decide_eq_true hj, Bool.true_and]

/-- Settles O17. -/
theorem statusWordFields : Obligations.StatusWordFields := by
  unfold Obligations.StatusWordFields
  intro s
  exact ⟨getLsbD_statusWord s 0, extractLsb'_statusWord_reserved (by omega), extractLsb'_statusWord_err s,
    getLsbD_statusWord s 8, getLsbD_statusWord s 9, extractLsb'_statusWord_reserved (by omega),
    getLsbD_statusWord s 16, extractLsb'_statusWord_reserved (by omega), fun hp d => hostWrite_reg hp d .status⟩

/-! ## The views (R24) -/

theorem subh_eq (s : State) : subh s = (s.imgh.toNat + 1) / 2 := by
  simp only [subh, padh]
  omega

theorem subw_eq (s : State) : subw s = (s.imgw.toNat + 1) / 2 := by
  simp only [subw, padw]
  omega

theorem padh_le (s : State) : padh s ≤ 65536 := by
  have := s.imgh.isLt
  simp only [padh]
  omega

theorem padw_le (s : State) : padw s ≤ 65536 := by
  have := s.imgw.isLt
  simp only [padw]
  omega

theorem subh_le (s : State) : subh s ≤ 32768 := by
  have := padh_le s
  simp only [subh]
  omega

theorem subw_le (s : State) : subw s ≤ 32768 := by
  have := padw_le s
  simp only [subw]
  omega

theorem cap_le_views (s : State) : cap s ≤ 2 ^ 30 := calc
  cap s ≤ 32768 * 32768 := Nat.mul_le_mul (subh_le s) (subw_le s)
  _ = 2 ^ 30 := by decide

theorem bitlen_le (s : State) : bitlen s ≤ 2 ^ 27 := by
  have := s.msglen.isLt
  simp only [bitlen]
  omega

/-- A word holds every view exactly: none exceeds 2^30. -/
theorem toNat_ofNat_word {n : Nat} (h : n ≤ 2 ^ 30) : (BitVec.ofNat 32 n).toNat = n := by
  rw [BitVec.toNat_ofNat]
  omega

/-- Settles O18. -/
theorem viewsAreExact : Obligations.ViewsAreExact := by
  unfold Obligations.ViewsAreExact
  intro s
  have hpadh : (readReg s .padh).toNat = padh s := toNat_ofNat_word (by have := padh_le s; omega)
  have hpadw : (readReg s .padw).toNat = padw s := toNat_ofNat_word (by have := padw_le s; omega)
  have hsubh : (readReg s .subh).toNat = subh s := toNat_ofNat_word (by have := subh_le s; omega)
  have hsubw : (readReg s .subw).toNat = subw s := toNat_ofNat_word (by have := subw_le s; omega)
  have hcap : (readReg s .cap).toNat = cap s := toNat_ofNat_word (cap_le_views s)
  have hlen : (readReg s .bitlen).toNat = bitlen s := toNat_ofNat_word (by have := bitlen_le s; omega)
  rw [hpadh, hpadw, hsubh, hsubw, hcap, hlen]
  refine ⟨rfl, rfl, subh_eq s, subw_eq s, ?_, rfl, padh_le s, padw_le s, subh_le s, subw_le s, cap_le_views s,
    bitlen_le s, fun hp => ?_, fun a d h5 h10 => ⟨fun hp => ?_, fun hp => hostWrite_of_breach d (.inr hp)⟩⟩
  · rw [cap, subh_eq, subw_eq]
  · exact ⟨hostRead_reg hp .padh, hostRead_reg hp .padw, hostRead_reg hp .subh, hostRead_reg hp .subw,
      hostRead_reg hp .cap, hostRead_reg hp .bitlen⟩
  · obtain ⟨r, rfl, hr⟩ := view_of_addr h5 h10
    rw [hostWrite_reg hp]
    rcases hr with rfl | rfl | rfl | rfl | rfl | rfl <;> rfl

/-- Settles O54: MSGN is the number of whole bytes among the coefficients of LL, so a message of MSGN bytes and its
terminator take more bits than CAP. -/
theorem oversizedMessageNeverFits : Obligations.OversizedMessageNeverFits := by
  unfold Obligations.OversizedMessageNeverFits
  intro s hd hlen
  have hcap : cap s / 8 ≤ msgn s.cfg := cap_le_msgn hd
  change cap s < 8 * s.msglen.toNat + 8
  omega

/-! ## The reset state (R40) -/

theorem payloadFailure_of_badDim {s : State} (h : ¬DimsAccepted s) : payloadFailure s = some (failBadDim s) := by
  rw [← dimOk_iff, Bool.not_eq_true] at h
  rw [payloadFailure, if_pos h]

/-- R204: with dimensions that are not accepted every command but NOP fails with BadDim. -/
theorem exec_of_badDim {i : Instr} {s : State} (h : ¬DimsAccepted s) (hi : i ≠ .nop) :
    exec i s = .next (failBadDim s) := by
  cases i with
  | nop => exact absurd rfl hi
  | fwd => simp only [exec, execFwd, dimFailure_some h]
  | inv => simp only [exec, execInv, dimFailure_some h]
  | splice => simp only [exec, execSplice, payloadFailure_of_badDim h]
  | unsplice => simp only [exec, execUnsplice, dimFailure_some h]
  | embed => simp only [exec, execEmbed, payloadFailure_of_badDim h]
  | extract => simp only [exec, execExtract, dimFailure_some h]

theorem reset_dims_not_accepted : ¬DimsAccepted State.reset := by
  rintro ⟨h, -⟩
  exact absurd h (by decide)

/-- Settles O56. -/
theorem resetLeavesRegistersZero : Obligations.ResetLeavesRegistersZero := by
  unfold Obligations.ResetLeavesRegistersZero
  refine ⟨rfl, by decide, fun r hr => ?_, by decide, fun a => ⟨rfl, rfl, fun b => by cases b <;> rfl⟩, fun i hi => ?_⟩
  · cases r with
    | bitlen => exact absurd rfl hr
    | _ => decide
  · rw [exec_of_badDim reset_dims_not_accepted hi]
    rfl

/-- Settles O58: the memories list no cell, and the result group is all 0. -/
theorem invariantHoldsAtReset : Obligations.InvariantHoldsAtReset := by
  unfold Obligations.InvariantHoldsAtReset
  obtain ⟨hpix, hmsg, hband⟩ := reset_memories_wf
  have no_cell : ∀ b (x : Nat × Int), x ∉ bandMem State.reset b := by
    intro b x hx
    cases b <;> exact List.not_mem_nil hx
  exact {
    pix_wf := hpix
    pix_keys := fun x hx => absurd hx List.not_mem_nil
    band_wf := hband
    band_keys := fun b x hx => absurd hx (no_cell b x)
    band_range := fun b x hx => absurd hx (no_cell b x)
    msg_wf := hmsg
    msg_keys := fun x hx => absurd hx List.not_mem_nil
    err_le := Nat.zero_le _
    info_zero := fun _ => ⟨rfl, rfl⟩
    term_err := fun _ => .inl rfl
    clip_le := Nat.zero_le _
    clip_err := fun h => absurd rfl h }

end Sys2Proof.Machine
end

section
/-! The cell addresses (R60 to R62): the one-to-one correspondence of cells and valid addresses. -/

namespace Sys2Proof.Machine

/-! ## Addresses and cells (R60 to R62) -/

theorem msg_address_lt (c : Config) {i : Nat} (h : i < msgn c) : i < 2 ^ 20 := by
  have := msgn_le c
  omega

theorem maxhc_le (c : Config) : maxhc c ≤ 512 := by
  have := config_bounds c
  simp only [maxhc]
  omega

theorem maxwc_le (c : Config) : maxwc c ≤ 512 := by
  have := config_bounds c
  simp only [maxwc]
  omega

theorem bandSpace_bounds (b : Band) : 2 ≤ bandSpace b ∧ bandSpace b ≤ 5 := by cases b <;> decide

theorem cellExists_pix {c : Config} {r j : Nat} : cellExists c (.pix r j) = true ↔ r < c.maxh ∧ j < c.maxw :=
  decide_eq_true_iff

theorem cellExists_coef {c : Config} {b : Band} {k j : Nat} :
    cellExists c (.coef b k j) = true ↔ k < maxhc c ∧ j < maxwc c := decide_eq_true_iff

theorem cellExists_msg {c : Config} {i : Nat} : cellExists c (.msg i) = true ↔ i < msgn c := decide_eq_true_iff

/-! R61: the address of a cell that exists is the rule's number, which 24 bits hold. -/

theorem toNat_addrOf_reg (r : RegName) : (addrOf (.reg r)).toNat = regNumber r := by cases r <;> rfl

theorem toNat_addrOf_pix {c : Config} {r j : Nat} (h : cellExists c (.pix r j) = true) :
    (addrOf (.pix r j)).toNat = 0x100000 + 1024 * r + j := by
  obtain ⟨hr, hj⟩ := cellExists_pix.1 h
  have := config_bounds c
  simp only [addrOf, BitVec.toNat_ofNat]
  omega

theorem toNat_addrOf_coef {c : Config} {b : Band} {k j : Nat} (h : cellExists c (.coef b k j) = true) :
    (addrOf (.coef b k j)).toNat = 0x100000 * bandSpace b + 1024 * k + j := by
  obtain ⟨hk, hj⟩ := cellExists_coef.1 h
  have := maxhc_le c
  have := maxwc_le c
  have := bandSpace_bounds b
  simp only [addrOf, BitVec.toNat_ofNat]
  omega

theorem toNat_addrOf_msg {c : Config} {i : Nat} (h : cellExists c (.msg i) = true) :
    (addrOf (.msg i)).toNat = 0x600000 + i := by
  have := msg_address_lt c (cellExists_msg.1 h)
  simp only [addrOf, BitVec.toNat_ofNat]
  omega

/-! What an address names, space by space. -/

theorem cellOfAddr_of_reg (c : Config) {a : Addr} (hs : addrSpace a = 0) :
    cellOfAddr c a = (regOfNumber (addrIndex a)).map .reg := by
  simp only [cellOfAddr, hs]

theorem cellOfAddr_of_pix {c : Config} {a : Addr} (hs : addrSpace a = 1) (hr : addrRow a < c.maxh)
    (hj : addrCol a < c.maxw) : cellOfAddr c a = some (.pix (addrRow a) (addrCol a)) := by
  simp only [cellOfAddr, hs]
  exact if_pos ⟨hr, hj⟩

theorem cellOfAddr_of_coef {c : Config} {a : Addr} {b : Band} (hs : addrSpace a = bandSpace b)
    (hr : addrRow a < maxhc c) (hj : addrCol a < maxwc c) :
    cellOfAddr c a = some (.coef b (addrRow a) (addrCol a)) := by
  have hcell : cellOfAddr c a = coefCell c b (addrRow a) (addrCol a) := by
    cases b <;> simp only [cellOfAddr, hs, bandSpace]
  rw [hcell]
  exact if_pos ⟨hr, hj⟩

theorem cellOfAddr_of_msg {c : Config} {a : Addr} (hs : addrSpace a = 6) (hi : addrIndex a < msgn c) :
    cellOfAddr c a = some (.msg (addrIndex a)) := by
  simp only [cellOfAddr, hs]
  exact if_pos hi

/-- The low 20 bits of an address are its two 10-bit fields. -/
theorem addrIndex_eq_row_col (a : Addr) : addrIndex a = 1024 * addrRow a + addrCol a := by
  rw [addrIndex_eq, addrRow_eq, addrCol_eq]
  omega

theorem toNat_addr (a : Addr) : a.toNat = 0x100000 * addrSpace a + addrIndex a := by
  rw [addrSpace_eq, addrIndex_eq]
  omega

theorem cellExists_of_cellOfAddr {c : Config} {a : Addr} {n : CellName} (h : cellOfAddr c a = some n) :
    cellExists c n = true := by
  rcases cellOfAddr_cases h with ⟨r, rfl, -⟩ | ⟨rfl, -, hcell⟩ | ⟨b, rfl, -, hcell⟩ | ⟨rfl, -, hcell⟩
  · rfl
  · exact cellExists_pix.2 hcell
  · exact cellExists_coef.2 hcell
  · exact cellExists_msg.2 hcell

/-- An address is the address of the cell it names. -/
theorem addrOf_of_cellOfAddr {c : Config} {a : Addr} {n : CellName} (h : cellOfAddr c a = some n) : addrOf n = a := by
  have hcell := cellExists_of_cellOfAddr h
  have ha := toNat_addr a
  have hfields := addrIndex_eq_row_col a
  refine BitVec.eq_of_toNat_eq ?_
  rcases cellOfAddr_cases h with ⟨r, rfl, hs, hr⟩ | ⟨rfl, hs, -⟩ | ⟨b, rfl, hs, -⟩ | ⟨rfl, hs, -⟩
  · rw [toNat_addrOf_reg, hr, ha, hs]
    omega
  · rw [toNat_addrOf_pix hcell]
    omega
  · rw [toNat_addrOf_coef hcell]
    omega
  · rw [toNat_addrOf_msg hcell]
    omega

/-- The address of a cell that exists names it. -/
theorem cellOfAddr_addrOf {c : Config} {n : CellName} (h : cellExists c n = true) :
    cellOfAddr c (addrOf n) = some n := by
  cases n with
  | reg r => exact cellOfAddr_reg c r
  | pix r j =>
    have ha := toNat_addrOf_pix h
    obtain ⟨hr, hj⟩ := cellExists_pix.1 h
    have := config_bounds c
    have hs : addrSpace (addrOf (.pix r j)) = 1 := by rw [addrSpace_eq, ha]; omega
    have hrow : addrRow (addrOf (.pix r j)) = r := by rw [addrRow_eq, ha]; omega
    have hcol : addrCol (addrOf (.pix r j)) = j := by rw [addrCol_eq, ha]; omega
    rw [cellOfAddr_of_pix hs (hrow.trans_lt hr) (hcol.trans_lt hj), hrow, hcol]
  | coef b k j =>
    have ha := toNat_addrOf_coef h
    obtain ⟨hk, hj⟩ := cellExists_coef.1 h
    have := maxhc_le c
    have := maxwc_le c
    have hs : addrSpace (addrOf (.coef b k j)) = bandSpace b := by rw [addrSpace_eq, ha]; omega
    have hrow : addrRow (addrOf (.coef b k j)) = k := by rw [addrRow_eq, ha]; omega
    have hcol : addrCol (addrOf (.coef b k j)) = j := by rw [addrCol_eq, ha]; omega
    rw [cellOfAddr_of_coef hs (hrow.trans_lt hk) (hcol.trans_lt hj), hrow, hcol]
  | msg i =>
    have ha := toNat_addrOf_msg h
    have hi := cellExists_msg.1 h
    have := msg_address_lt c hi
    have hs : addrSpace (addrOf (.msg i)) = 6 := by rw [addrSpace_eq, ha]; omega
    have hidx : addrIndex (addrOf (.msg i)) = i := by rw [addrIndex_eq, ha]; omega
    rw [cellOfAddr_of_msg hs (hidx.trans_lt hi), hidx]

/-- Settles O10. -/
theorem addressesNameCells : Obligations.AddressesNameCells := by
  unfold Obligations.AddressesNameCells
  intro c
  exact ⟨fun a n h => ⟨cellExists_of_cellOfAddr h, addrOf_of_cellOfAddr h⟩, fun n h => cellOfAddr_addrOf h,
    fun _ _ => cellExists_pix, fun _ _ _ => cellExists_coef, fun _ => cellExists_msg,
    fun r => ⟨rfl, (toNat_addrOf_reg r).trans_le (regNumber_le r)⟩, by decide,
    fun _ _ => toNat_addrOf_pix, fun _ _ => toNat_addrOf_coef, fun _ _ => toNat_addrOf_coef,
    fun _ _ => toNat_addrOf_coef, fun _ _ => toNat_addrOf_coef, fun _ => toNat_addrOf_msg⟩

theorem regOfNumber_isSome {n : Nat} : (regOfNumber n).isSome = true ↔ n ≤ 13 := by
  constructor
  · intro h
    obtain ⟨r, hr⟩ := Option.isSome_iff_exists.1 h
    exact regOfNumber_some hr ▸ regNumber_le r
  · intro h
    interval_cases n <;> rfl

/-- A space from 2 to 5 is that of a subband. -/
theorem exists_bandSpace {n : Nat} (h2 : 2 ≤ n) (h5 : n ≤ 5) : ∃ b, n = bandSpace b := by
  interval_cases n
  · exact ⟨.ll, rfl⟩
  · exact ⟨.lh, rfl⟩
  · exact ⟨.hl, rfl⟩
  · exact ⟨.hh, rfl⟩

/-- R62: the valid addresses. -/
theorem cellOfAddr_isSome {c : Config} {a : Addr} : (cellOfAddr c a).isSome = true ↔
    (addrSpace a = 0 ∧ addrIndex a ≤ 13) ∨ (addrSpace a = 1 ∧ addrRow a < c.maxh ∧ addrCol a < c.maxw) ∨
    (2 ≤ addrSpace a ∧ addrSpace a ≤ 5 ∧ addrRow a < maxhc c ∧ addrCol a < maxwc c) ∨
    (addrSpace a = 6 ∧ addrIndex a < msgn c) := by
  constructor
  · intro h
    obtain ⟨n, hn⟩ := Option.isSome_iff_exists.1 h
    rcases cellOfAddr_cases hn with ⟨r, -, hs, hr⟩ | ⟨-, hcell⟩ | ⟨b, -, hs, hcell⟩ | ⟨-, hcell⟩
    · exact .inl ⟨hs, hr ▸ regNumber_le r⟩
    · exact .inr (.inl hcell)
    · obtain ⟨h2, h5⟩ := bandSpace_bounds b
      exact .inr (.inr (.inl ⟨hs ▸ h2, hs ▸ h5, hcell⟩))
    · exact .inr (.inr (.inr hcell))
  · rintro (⟨hs, hi⟩ | ⟨hs, hr, hj⟩ | ⟨h2, h5, hr, hj⟩ | ⟨hs, hi⟩)
    · rw [cellOfAddr_of_reg c hs, Option.isSome_map]
      exact regOfNumber_isSome.2 hi
    · rw [cellOfAddr_of_pix hs hr hj]
      rfl
    · obtain ⟨b, hs⟩ := exists_bandSpace h2 h5
      rw [cellOfAddr_of_coef hs hr hj]
      rfl
    · rw [cellOfAddr_of_msg hs hi]
      rfl

theorem cellOfAddr_status (c : Config) : cellOfAddr c 1 = some (.reg .status) := cellOfAddr_reg c .status

/-- Settles O11. STATUS, which a busy block lets the host read, has a valid address. -/
theorem invalidAddressSetsAccErr : Obligations.InvalidAddressSetsAccErr := by
  unfold Obligations.InvalidAddressSetsAccErr
  refine ⟨fun c a => ?_, fun s a d hc => ?_⟩
  · rw [← addrSpace_eq, ← addrIndex_eq, ← addrRow_eq, ← addrCol_eq]
    exact cellOfAddr_isSome
  · have hne : a ≠ 1 := by
      rintro rfl
      rw [cellOfAddr_status] at hc
      cases hc
    by_cases hp : s.pend = none
    · exact ⟨hostWrite_of_breach d (.inl ⟨hp, hc⟩), hostRead_of_breach (.inl ⟨hp, hc⟩)⟩
    · exact ⟨hostWrite_of_breach d (.inr hp), hostRead_of_breach (.inr ⟨hp, hne⟩)⟩

end Sys2Proof.Machine
end

section
/-! The host transactions (R66 to R71): what a read returns, and the one cell a write changes. -/

namespace Sys2Proof.Machine

/-! ## Cells after a host write (R63, R67) -/

theorem pixAt_writeCell (s : State) (d : Word) (row col r c : Nat) : pixAt (writeCell s d (.pix row col)) r c =
    if cellKey r c = cellKey row col then d.setWidth 8 else pixAt s r c := by
  show (memFind (memWrite s.pix (cellKey row col) (d.setWidth 8)) (cellKey r c)).getD _ = _
  rw [memFind_memWrite]
  split <;> rfl

theorem coefAt_writeCell (s : State) (d : Word) (b : Band) (row col : Nat) (b' : Band) (r c : Nat) :
    coefAt (writeCell s d (.coef b row col)) b' r c =
      if b' = b ∧ cellKey r c = cellKey row col then signedLow s.cfg.cw d else coefAt s b' r c := by
  simp only [coefAt, writeCell, bandMem_setBand, setBand_cfg, setBand_epoch]
  by_cases hb : b' = b
  · subst hb
    rw [if_pos rfl, memFind_memWrite]
    by_cases hk : cellKey r c = cellKey row col
    · rw [if_pos hk, if_pos ⟨rfl, hk⟩, Option.getD_some]
    · rw [if_neg hk, if_neg fun h => hk h.2]
  · rw [if_neg hb, if_neg fun h => hb h.1]

theorem msgAt_writeCell (s : State) (d : Word) (i i' : Nat) : msgAt (writeCell s d (.msg i)) i' =
    if i' = i then d.setWidth 8 else msgAt s i' := by
  show (memFind (memWrite s.msg i (d.setWidth 8)) i').getD _ = _
  rw [memFind_memWrite]
  split <;> rfl

/-- A column number is one of ten bits, so a key names one cell. -/
theorem col_lt_of_pix {c : Config} {row col : Nat} (h : cellExists c (.pix row col) = true) : col < 1024 := by
  have := config_bounds c
  have := cellExists_pix.1 h
  omega

theorem col_lt_of_coef {c : Config} {b : Band} {row col : Nat} (h : cellExists c (.coef b row col) = true) :
    col < 1024 := by
  have := maxwc_le c
  have := cellExists_coef.1 h
  omega

/-- R69: a write to any register but CMD, IMGH, IMGW and MSGLEN is ignored. -/
theorem writeReg_of_readOnly (s : State) (d : Word) {r : RegName} (h : regNumber r = 1 ∨ 5 ≤ regNumber r) :
    writeReg s d r = s := by
  cases r with
  | cmd | imgh | imgw | msglen => exact absurd h (by decide)
  | _ => rfl

/-- The numbers 1 and 5 to 13 are those of registers. -/
theorem readOnly_of_addr {a : Addr} (h : a = 1 ∨ (5 ≤ a.toNat ∧ a.toNat ≤ 13)) :
    ∃ r, a = addrOf (.reg r) ∧ (regNumber r = 1 ∨ 5 ≤ regNumber r) := by
  rcases h with rfl | ⟨h5, h13⟩
  · exact ⟨.status, rfl, .inl rfl⟩
  · obtain ⟨r, hr⟩ := Option.isSome_iff_exists.1 (regOfNumber_isSome.2 h13)
    have hnum := regOfNumber_some hr
    exact ⟨r, BitVec.eq_of_toNat_eq (hnum.symm.trans (toNat_addrOf_reg r).symm), .inr (hnum ▸ h5)⟩

/-- Settles O14: a breach, or the write of the one cell the address names. -/
theorem hostWriteChangesOneCell : Obligations.HostWriteChangesOneCell := by
  unfold Obligations.HostWriteChangesOneCell
  intro s a d
  have at_reg : ∀ r, s.pend = none → a = addrOf (.reg r) → hostWrite s a d = writeReg s d r :=
    fun r hp ha => ha ▸ hostWrite_reg hp d r
  refine ⟨_, rfl, fun hp => hostWrite_of_breach d (.inr hp), fun hp hc => hostWrite_of_breach d (.inl ⟨hp, hc⟩),
    fun hp row col hc => ?_, fun hp b k j hc => ?_, fun hp i hc => ?_, fun hp ha => at_reg .cmd hp ha,
    fun hp ha => ?_, fun hp ha => ?_, fun hp ha => ?_, fun hp ha => ?_⟩
  · have hcol := col_lt_of_pix (cellExists_of_cellOfAddr hc)
    rw [hostWrite_of_cell hp hc]
    refine ⟨rfl, ?_, fun r c hlt hne => ?_⟩
    · rw [pixAt_writeCell, if_pos rfl, BitVec.toNat_setWidth]
    · rw [pixAt_writeCell, if_neg]
      rwa [cellKey_inj hlt hcol, ← Prod.mk.injEq]
  · have hcol := col_lt_of_coef (cellExists_of_cellOfAddr hc)
    rw [hostWrite_of_cell hp hc]
    refine ⟨by cases b <;> rfl, ?_, fun b' r c hlt hne => ?_⟩
    · have hcw : 1 ≤ s.cfg.cw := by have := config_bounds s.cfg; omega
      rw [coefAt_writeCell, if_pos ⟨rfl, rfl⟩, signedLow_eq hcw]
    · rw [coefAt_writeCell, if_neg]
      rwa [cellKey_inj hlt hcol, ← Prod.mk.injEq, ← Prod.mk.injEq]
  · rw [hostWrite_of_cell hp hc]
    refine ⟨rfl, ?_, fun i' hne => ?_⟩
    · rw [msgAt_writeCell, if_pos rfl, BitVec.toNat_setWidth]
    · rw [msgAt_writeCell, if_neg hne]
  · rw [at_reg .imgh hp ha, BitVec.ofNat_toNat]
    rfl
  · rw [at_reg .imgw hp ha, BitVec.ofNat_toNat]
    rfl
  · rw [at_reg .msglen hp ha, BitVec.ofNat_toNat]
    rfl
  · obtain ⟨r, har, hro⟩ := readOnly_of_addr ha
    rw [at_reg r hp har]
    exact writeReg_of_readOnly s d hro

/-- The state that a write to a memory cell leaves is idle and configured as before, so that the address still names
the cell. -/
theorem hostRead_hostWrite {s : State} {a : Addr} {n : CellName} (d : Word) (hp : s.pend = none)
    (hc : cellOfAddr s.cfg a = some n) (hn : ∀ r, n ≠ .reg r) :
    (hostRead (hostWrite s a d) a).2 = readCell (writeCell s d n) n := by
  obtain ⟨hpend, hcfg⟩ : (writeCell s d n).pend = s.pend ∧ (writeCell s d n).cfg = s.cfg := by
    cases n with
    | reg r => exact absurd rfl (hn r)
    | coef b k j => exact ⟨setBand_pend s b _, setBand_cfg s b _⟩
    | _ => exact ⟨rfl, rfl⟩
  rw [hostWrite_of_cell hp hc, hostRead_of_cell (hpend.trans hp) (hcfg.symm ▸ hc)]

/-- Settles O15. -/
theorem writtenCellReadsBack : Obligations.WrittenCellReadsBack := by
  unfold Obligations.WrittenCellReadsBack
  intro s a d hp
  refine ⟨fun row col hc => ?_, fun b k j hc => ?_, fun i hc => ?_⟩
  · rw [hostRead_hostWrite d hp hc nofun, readCell, pixAt_writeCell, if_pos rfl]
  · have hcfg : (writeCell s d (.coef b k j)).cfg = s.cfg := setBand_cfg s b _
    rw [hostRead_hostWrite d hp hc nofun, readCell, coefAt_writeCell, if_pos ⟨rfl, rfl⟩, hcfg, signedLow,
      BitVec.ofInt_toInt]
  · rw [hostRead_hostWrite d hp hc nofun, readCell, msgAt_writeCell, if_pos rfl]

/-! ## Host reads (R66, R68, R71) -/

/-- R71: a busy block answers a read of STATUS, as an idle one does, and changes nothing. -/
theorem hostRead_status (s : State) : hostRead s 1 = (s, statusWord s) := by
  cases hp : s.pend with
  | none => exact hostRead_reg hp .status
  | some w =>
    have hb : busyFlag s = true := by rw [busyFlag, hp]; rfl
    rw [hostRead, if_pos hb]
    exact if_pos rfl

/-- Settles O12. -/
theorem hostReadReturnsCell : Obligations.HostReadReturnsCell := by
  unfold Obligations.HostReadReturnsCell
  intro s a
  refine ⟨fun _ ha => ha ▸ hostRead_status s, fun hp ha => hostRead_of_breach (.inr ⟨hp, ha⟩),
    fun hp hc => hostRead_of_breach (.inl ⟨hp, hc⟩), fun hp n hc => ?_⟩
  rw [hostRead_of_cell hp hc]
  cases n <;> rfl

/-- Settles O16. -/
theorem busyRuleProtectsTheCommand : Obligations.BusyRuleProtectsTheCommand := by
  unfold Obligations.BusyRuleProtectsTheCommand
  intro s w hp
  have hne : s.pend ≠ none := by rw [hp]; nofun
  refine ⟨hostRead_status s, ?_, fun a ha => hostRead_of_breach (.inr ⟨hne, ha⟩),
    fun a d => hostWrite_of_breach d (.inr hne)⟩
  rw [getLsbD_statusWord, if_pos rfl, hp]
  rfl

/-- Settles O13. -/
theorem registerReadValues : Obligations.RegisterReadValues := by
  unfold Obligations.RegisterReadValues
  intro s hp
  refine ⟨hostRead_reg hp .cmd, hostRead_reg hp .status, ?_, hostRead_reg hp .imgh, hostRead_reg hp .imgw,
    hostRead_reg hp .msglen, hostRead_reg hp .padh, hostRead_reg hp .padw, ?_, ?_, ?_, hostRead_reg hp .bitlen,
    hostRead_reg hp .clipcnt, hostRead_reg hp .errinfo0, hostRead_reg hp .errinfo1,
    hostRead_of_breach (.inl ⟨hp, rfl⟩)⟩
  · rw [getLsbD_statusWord, if_pos rfl, hp]
    rfl
  · rw [← subh_eq]
    exact hostRead_reg hp .subh
  · rw [← subw_eq]
    exact hostRead_reg hp .subw
  · rw [← subh_eq, ← subw_eq]
    exact hostRead_reg hp .cap

end Sys2Proof.Machine
end

section
/-! The step and its event (R72, R73): the engine's turn and the host's. -/

namespace Sys2Proof.Machine

/-! ## The engine's turn (R72) -/

/-- The engine has its turn when the script names it, or names nothing (log entry 4). -/
theorem step_of_engineTurn {s : State} (h : s.script = [] ∨ s.script.head? = some .engine) :
    step s = engineStep { s with script := s.script.tail } := by
  rcases h with h | h
  · simp only [step, nextEvent, eventStep, h, List.tail_nil]
  · exact step_of_head h

/-- On the engine's turn the step is Exec of the pending word. -/
theorem step_of_pending {s t : State} {w : Word} (h : s.script = [] ∨ s.script.head? = some .engine)
    (hp : s.pend = some w) (ht : execWord w { s with script := s.script.tail } = .next t) :
    step s = .next { t with pend := none } :=
  (step_of_engineTurn h).trans (engineStep_pending hp ht)

theorem execWord_of_decode {w : Word} {i : Instr} (h : decode w = .ok i) (s : State) : execWord w s = exec i s := by
  rw [execWord, h]

theorem decode_encode (i : Instr) : decode (encode i) = .ok i := by cases i <;> rfl

/-- Everything the engine's step can do: nothing, or the completion of the pending word. -/
theorem engineStep_cases {s t : State} (h : engineStep s = .next t) :
    t = s ∨ ∃ w v, execWord w s = .next v ∧ t = completePending v := by
  cases hp : s.pend with
  | none =>
    rw [engineStep, hp] at h
    cases h
    exact .inl rfl
  | some w =>
    obtain ⟨v, hv⟩ := execWord_next w s
    rw [engineStep_pending hp hv] at h
    cases h
    exact .inr ⟨w, v, hv, rfl⟩

/-- Settles O3. -/
theorem stepRunsThePendingCommand : Obligations.StepRunsThePendingCommand := by
  unfold Obligations.StepRunsThePendingCommand
  intro s w i hturn hp hi _
  obtain ⟨t, ht⟩ := exec_next i { s with script := s.script.tail }
  rw [ht, step_of_pending hturn hp ((execWord_of_decode hi _).trans ht)]

/-- Settles O4. -/
theorem fetchWordRunsNext : Obligations.FetchWordRunsNext := by
  unfold Obligations.FetchWordRunsNext
  intro s t i ht
  have hplaced : s.withFetchWord 32 (encode i).toNat =
      { s with pend := some (encode i), script := .engine :: s.script } := by
    have hword : BitVec.ofNat 32 ((encode i).toNat % 2 ^ 32) = encode i := by cases i <;> rfl
    rw [State.withFetchWord, presentCommand, Nat.min_self, hword]
  rw [hplaced]
  exact step_of_pending (.inr rfl) rfl ((execWord_of_decode (decode_encode i) _).trans ht)

/-- Settles O6. -/
theorem idleEngineRetainsState : Obligations.IdleEngineRetainsState := by
  unfold Obligations.IdleEngineRetainsState
  intro s hturn hp
  rw [step_of_engineTurn hturn, engineStep, hp]

/-! ## The script along a step -/

@[simp] theorem hostRead_script (s : State) (a : Addr) : (hostRead s a).1.script = s.script := by
  rcases hostRead_cases s a with h | h <;> simp [h]

@[simp] theorem writeCell_script (s : State) (d : Word) (n : CellName) : (writeCell s d n).script = s.script := by
  cases n with
  | reg r => cases r <;> rfl
  | coef b => exact setBand_script s b _
  | _ => rfl

@[simp] theorem hostWrite_script (s : State) (a : Addr) (d : Word) : (hostWrite s a d).script = s.script := by
  rcases hostWrite_cases s a d with h | ⟨n, -, -, h⟩ <;> simp [h]

theorem execWord_script {w : Word} {s t : State} (h : execWord w s = .next t) : t.script = s.script := by
  rcases execWord_effect h with rfl | ⟨i, -, hi⟩
  · rfl
  · obtain ⟨-, -, -, -, -, -, -, hscript⟩ := hi.frame
    exact hscript

/-- No event reaches the events after it. -/
theorem eventStep_script {e : HostEvent} {s t : State} (h : eventStep e s = .next t) : t.script = s.script := by
  cases e with
  | read a =>
    cases h
    exact hostRead_script s a
  | write a d =>
    cases h
    exact hostWrite_script s a d
  | reset =>
    cases h
    rfl
  | engine =>
    rcases engineStep_cases h with rfl | ⟨w, v, hv, rfl⟩
    · rfl
    · exact (completePending_script v).trans (execWord_script hv)

/-- Settles O7. -/
theorem stepTakesTheNextEvent : Obligations.StepTakesTheNextEvent := by
  unfold Obligations.StepTakesTheNextEvent
  intro s rest
  have takes : ∀ e, s.script = e :: rest → step s = eventStep e { s with script := rest } := by
    intro e hs
    rw [step_of_head (e := e) (by rw [hs]; rfl), hs, List.tail_cons]
  refine ⟨fun a hs => takes _ hs, fun a d hs => takes _ hs, fun hs => takes _ hs, fun t ht => ?_⟩
  obtain ⟨e, hstep, -⟩ := step_cases s
  exact eventStep_script (hstep.symm.trans ht)

end Sys2Proof.Machine
end

section
/-! The invariant along a step (R20, R29 to R34, R60, R121, R127, R201). -/

namespace Sys2Proof.Machine

/-! ## Memories whose listed cells all meet a condition (R60, R62) -/

/-- A memory in canonical form whose listed cells all meet `P`. -/
structure MemoryOk {α : Type} (P : Nat × α → Prop) (m : Memory α) : Prop where
  wf : m.wf
  cells : ∀ x, x ∈ m → P x

theorem MemoryOk.nil {α : Type} (P : Nat × α → Prop) : MemoryOk P [] :=
  ⟨List.Pairwise.nil, fun _ hx => absurd hx List.not_mem_nil⟩

theorem MemoryOk.write {α : Type} {P : Nat × α → Prop} {m : Memory α} (hm : MemoryOk P m) {a : Nat} {v : α}
    (hv : P (a, v)) : MemoryOk P (memWrite m a v) := by
  obtain ⟨hwf, hall⟩ := hm
  refine ⟨wf_memWrite a v hwf, fun x hx => ?_⟩
  rcases mem_memWrite hx with rfl | hx
  · exact hv
  · exact hall x hx

theorem MemoryOk.store {α : Type} {P : Nat × α → Prop} {m : Memory α} (hm : MemoryOk P m)
    {cells : List (Nat × α)} (hc : ∀ x, x ∈ cells → P x) : MemoryOk P (memStore m cells) := by
  obtain ⟨hwf, hall⟩ := hm
  refine ⟨wf_memStore cells hwf, fun x hx => ?_⟩
  rcases mem_memStore hx with hx | hx
  · exact hc x hx
  · exact hall x hx

/-- A pixel cell that exists (R60). -/
def PixCell (c : Config) (x : Nat × Byte) : Prop := x.1 / 1024 < c.maxh ∧ x.1 % 1024 < c.maxw

/-- A coefficient that fits CW bits (R20). -/
def FitsCell (c : Config) (v : Int) : Prop := cmin c ≤ v ∧ v ≤ cmax c

/-- A coefficient cell that exists, with contents that fit it. -/
def BandCell (c : Config) (x : Nat × Int) : Prop :=
  (x.1 / 1024 < maxhc c ∧ x.1 % 1024 < maxwc c) ∧ FitsCell c x.2

/-- A message cell that exists. -/
def MsgCell (c : Config) (x : Nat × Byte) : Prop := x.1 < msgn c

theorem pixCell_cellKey {c : Config} {row col : Nat} {v : Byte} (hr : row < c.maxh) (hc : col < c.maxw) :
    PixCell c (cellKey row col, v) := by
  have hcol : col < 1024 := by have := config_bounds c; omega
  exact ⟨(cellKey_div hcol).trans_lt hr, (cellKey_mod hcol).trans_lt hc⟩

theorem bandCell_cellKey {c : Config} {row col : Nat} {v : Int} (hr : row < maxhc c) (hc : col < maxwc c)
    (hv : FitsCell c v) : BandCell c (cellKey row col, v) := by
  have hcol : col < 1024 := by have := maxwc_le c; omega
  exact ⟨⟨(cellKey_div hcol).trans_lt hr, (cellKey_mod hcol).trans_lt hc⟩, hv⟩

/-! ## The two halves of the invariant -/

/-- The half of the invariant that is about the memories. -/
structure MemoriesOk (s : State) : Prop where
  pix : MemoryOk (PixCell s.cfg) s.pix
  band : ∀ b, MemoryOk (BandCell s.cfg) (bandMem s b)
  msg : MemoryOk (MsgCell s.cfg) s.msg

/-- The half of the invariant that is about the result group (R29 to R34). -/
structure ResultOk (s : State) : Prop where
  err_le : s.err.toNat ≤ 5
  info_zero : s.err = 0 → s.errinfo0 = 0 ∧ s.errinfo1 = 0
  term_err : s.term = true → s.err = 0 ∨ s.err = 5
  clip_le : s.clipcnt.toNat ≤ s.cfg.maxh * s.cfg.maxw
  clip_err : s.clipcnt ≠ 0 → s.err = 0 ∧ s.term = false

theorem stateInv_iff {s : State} : StateInv s ↔ MemoriesOk s ∧ ResultOk s := by
  constructor
  · intro h
    exact ⟨{ pix := ⟨h.pix_wf, h.pix_keys⟩
             band := fun b => ⟨h.band_wf b, fun x hx => ⟨h.band_keys b x hx, h.band_range b x hx⟩⟩
             msg := ⟨h.msg_wf, h.msg_keys⟩ },
      ⟨h.err_le, h.info_zero, h.term_err, h.clip_le, h.clip_err⟩⟩
  · rintro ⟨hm, hr⟩
    exact {
      pix_wf := hm.pix.wf
      pix_keys := hm.pix.cells
      band_wf := fun b => (hm.band b).wf
      band_keys := fun b x hx => ((hm.band b).cells x hx).1
      band_range := fun b x hx => ((hm.band b).cells x hx).2
      msg_wf := hm.msg.wf
      msg_keys := hm.msg.cells
      err_le := hr.err_le
      info_zero := hr.info_zero
      term_err := hr.term_err
      clip_le := hr.clip_le
      clip_err := hr.clip_err }

/-! ## The values a command stores in a subband (R121, R127) -/

theorem fitsCell_signedLow (c : Config) (d : Word) : FitsCell c (signedLow c.cw d) := signedLow_range d

/-- Every cell of 11 bits or more holds a value between -510 and 510. -/
theorem fitsCell_of_abs_le (c : Config) {v : Int} (h0 : -510 ≤ v) (h1 : v ≤ 510) : FitsCell c v := by
  have hcw : 10 ≤ c.cw - 1 := by have := config_bounds c; omega
  have hpow : (2 : Int) ^ 10 ≤ 2 ^ (c.cw - 1) := pow_le_pow_right₀ (by decide) hcw
  simp only [FitsCell, cmin, cmax]
  omega

theorem fitsCell_setlsb {c : Config} {v : Int} (b : Bool) (h : FitsCell c v) : FitsCell c (setlsb v b) := by
  have hcw : 1 < c.cw := by have := config_bounds c; omega
  exact setlsb_range hcw b h.1 h.2

/-- R121: the forward transform of an image fits an 11-bit cell. -/
theorem fitsCell_forwardOfImage (c : Config) (s : State) (b : Band) (k j : Nat) :
    FitsCell c (bandOf (forwardOfImage s) b k j) := by
  have hpix : ∀ r q, 0 ≤ pad s.imgh.toNat s.imgw.toNat (image s) r q ∧
      pad s.imgh.toNat s.imgw.toNat (image s) r q ≤ 255 := by
    intro r q
    have := (pixAt s (min r (s.imgh.toNat - 1)) (min q (s.imgw.toNat - 1))).isLt
    simp only [pad, image]
    omega
  have hee := hpix (2 * k) (2 * j)
  have heo := hpix (2 * k) (2 * j + 1)
  have hoe := hpix (2 * k + 1) (2 * j)
  have hoo := hpix (2 * k + 1) (2 * j + 1)
  cases b <;> refine fitsCell_of_abs_le c ?_ ?_ <;>
    simp only [bandOf, forwardOfImage, fwd2d_ll, fwd2d_lh, fwd2d_hl, fwd2d_hh, fdiv2_eq] <;> omega

/-- R127: replacing least-significant bits keeps the range. -/
theorem fitsCell_spliced {c : Config} {w : Nat} {bits : List Bool} {A : Mat} {k j : Nat} (h : FitsCell c (A k j)) :
    FitsCell c (spliced w bits A k j) := by
  unfold spliced
  split
  · exact fitsCell_setlsb _ h
  · exact h

theorem fitsCell_embedSubbands (c : Config) (s : State) (b : Band) (k j : Nat) :
    FitsCell c (bandOf (embedSubbands s) b k j) := by
  cases b with
  | ll => exact fitsCell_spliced (fitsCell_forwardOfImage c s .ll k j)
  | lh => exact fitsCell_forwardOfImage c s .lh k j
  | hl => exact fitsCell_forwardOfImage c s .hl k j
  | hh => exact fitsCell_forwardOfImage c s .hh k j

/-- A coefficient read from a memory of the invariant fits its cell, one not written since reset as well (U1). -/
theorem MemoriesOk.fitsCell_coefAt {s : State} (h : MemoriesOk s) (b : Band) (k j : Nat) :
    FitsCell s.cfg (coefAt s b k j) := by
  unfold coefAt
  cases hf : memFind (bandMem s b) (cellKey k j) with
  | none => exact fitsCell_signedLow s.cfg _
  | some v => exact ((h.band b).cells _ (mem_of_memFind hf)).2

/-! ## The stores keep the memories (R36 to R38) -/

protected theorem MemoriesOk.storePix {s : State} (hm : MemoriesOk s) {h w : Nat} (Q : Mat) (hh : h ≤ s.cfg.maxh)
    (hw : w ≤ s.cfg.maxw) : MemoriesOk (storePix s h w Q) := by
  refine ⟨hm.pix.store fun x hx => ?_, hm.band, hm.msg⟩
  obtain ⟨r, q, hr, hq, rfl⟩ := mem_regionCells.1 hx
  exact pixCell_cellKey (hr.trans_le hh) (hq.trans_le hw)

protected theorem MemoriesOk.storeSubbands {s : State} (hm : MemoriesOk s) {h w : Nat} {X : Subbands}
    (hh : h ≤ maxhc s.cfg) (hw : w ≤ maxwc s.cfg) (hX : ∀ b k j, FitsCell s.cfg (bandOf X b k j)) :
    MemoriesOk (storeSubbands s h w X) := by
  refine ⟨hm.pix, fun b => ?_, hm.msg⟩
  rw [bandMem_storeSubbands]
  refine (hm.band b).store fun x hx => ?_
  obtain ⟨k, j, hk, hj, rfl⟩ := mem_regionCells.1 hx
  exact bandCell_cellKey (hk.trans_le hh) (hj.trans_le hw) (hX b k j)

protected theorem MemoriesOk.storeMessage {s : State} (hm : MemoriesOk s) {out : List Byte}
    (ho : out.length ≤ msgn s.cfg) : MemoriesOk (storeMessage s out) := by
  refine ⟨hm.pix, hm.band, hm.msg.store fun x hx => ?_⟩
  obtain ⟨hlt, -⟩ := mem_messageCells.1 hx
  exact hlt.trans_le ho

protected theorem MemoriesOk.setBand {s : State} (hm : MemoriesOk s) (b : Band) {m : Memory Int}
    (h : MemoryOk (BandCell s.cfg) m) : MemoriesOk (setBand s b m) := by
  refine ⟨by simpa using hm.pix, fun b' => ?_, by simpa using hm.msg⟩
  rw [bandMem_setBand, setBand_cfg]
  split
  · exact h
  · exact hm.band b'

/-- R153: the cells a splice writes are those of the live region, in row-major order. -/
protected theorem MemoriesOk.splice {s : State} (hm : MemoriesOk s) (hd : DimsAccepted s) (hf : MessageFits s) :
    MemoriesOk { s with ll := memStore s.ll (spliceCells (subw s) (bitstream (message s)) (coefAt s .ll)) } := by
  obtain ⟨-, -, hsubh, hsubw, -, hpos, -⟩ := dims_bounds hd
  refine hm.setBand .ll ((hm.band .ll).store fun x hx => ?_)
  obtain ⟨i, hi, rfl⟩ := mem_spliceCells.1 hx
  rw [length_bitstream_message] at hi
  have hrow : i / subw s < subh s := (Nat.div_lt_iff_lt_mul hpos).2 (hi.trans_le hf)
  have hcol : i % subw s < subw s := Nat.mod_lt i hpos
  exact bandCell_cellKey (hrow.trans_le hsubh) (hcol.trans_le hsubw) (fitsCell_setlsb _ (hm.fitsCell_coefAt .ll _ _))

protected theorem MemoriesOk.finish {s : State} (hm : MemoriesOk s) (e : Option CmdError) (t : Bool) (n : Nat) :
    MemoriesOk (finish e t n s) := ⟨hm.pix, hm.band, hm.msg⟩

protected theorem MemoriesOk.fail {s : State} (hm : MemoriesOk s) (e : CmdError) (i0 i1 : Word) :
    MemoriesOk (fail e i0 i1 s) := ⟨hm.pix, hm.band, hm.msg⟩

/-- R7, R156: a message decoded from the live region fits MSG. -/
protected theorem MemoriesOk.deliver {s : State} (hm : MemoriesOk s) (hd : DimsAccepted s) (A : Mat) :
    MemoriesOk (deliver s (decodeGroups (llBits (cap s) (subw s) A))) := by
  refine (hm.storeMessage ?_).finish _ _ _
  have hlen := length_decodeGroups_le (llBits (cap s) (subw s) A)
  rw [length_llBits] at hlen
  exact hlen.trans (cap_le_msgn hd)

/-! ## What a command leaves -/

theorem CommandEffect.memoriesOk {i : Instr} {s t : State} (h : CommandEffect i s t) (hm : MemoriesOk s) :
    MemoriesOk t := by
  cases h with
  | failed e i0 i1 => exact hm.fail e i0 i1
  | nop => exact hm.finish _ _ _
  | fwd hd =>
    obtain ⟨-, -, hsubh, hsubw, -⟩ := dims_bounds hd
    exact (hm.storeSubbands hsubh hsubw (fitsCell_forwardOfImage s.cfg s)).finish _ _ _
  | inv hd =>
    obtain ⟨hpadh, hpadw, -⟩ := dims_bounds hd
    exact (hm.storePix _ hpadh hpadw).finish _ _ _
  | splice hd hf => exact (hm.splice hd hf).finish _ _ _
  | unsplice hd => exact hm.deliver hd _
  | embed hd =>
    obtain ⟨hpadh, hpadw, hsubh, hsubw, -⟩ := dims_bounds hd
    exact ((hm.storeSubbands hsubh hsubw (fitsCell_embedSubbands s.cfg s)).storePix _ hpadh hpadw).finish _ _ _
  | extract hd =>
    obtain ⟨-, -, hsubh, hsubw, -⟩ := dims_bounds hd
    exact (hm.storeSubbands hsubh hsubw (fitsCell_forwardOfImage s.cfg s)).deliver hd _

theorem errCode_le (e : CmdError) : (errCode e).toNat ≤ 5 := by cases e <;> decide

theorem errCode_ne_zero (e : CmdError) : errCode e ≠ 0 := by cases e <;> decide

/-- R203: an aborting error writes a coherent result group. -/
theorem resultOk_fail (e : CmdError) (i0 i1 : Word) (s : State) : ResultOk (fail e i0 i1 s) where
  err_le := errCode_le e
  info_zero := fun h => absurd h (errCode_ne_zero e)
  term_err := nofun
  clip_le := Nat.zero_le _
  clip_err := fun h => absurd rfl h

/-- R143: so does a completion without an error, when the clip count is no larger than the pixel memory. -/
theorem resultOk_finish {s : State} {n : Nat} (hn : n ≤ s.cfg.maxh * s.cfg.maxw) :
    ResultOk (finish none false n s) where
  err_le := Nat.zero_le _
  info_zero := fun _ => ⟨rfl, rfl⟩
  term_err := nofun
  clip_le := (BitVec.toNat_ofNat n 32).trans_le ((Nat.mod_le _ _).trans hn)
  clip_err := fun _ => ⟨rfl, rfl⟩

/-- R157: so does a decoder, whatever it found. -/
theorem resultOk_deliver (s : State) (r : List Byte × Bool) : ResultOk (deliver s r) where
  err_le := by
    show (resultCode (payloadError r.1.length r.2)).toNat ≤ 5
    rcases resultCode_payloadError r.1.length r.2 with h | h <;> rw [h] <;> decide
  info_zero := fun _ => ⟨rfl, rfl⟩
  term_err := fun _ => resultCode_payloadError _ _
  clip_le := Nat.zero_le _
  clip_err := fun h => absurd rfl h

/-- R32: no inverse transform of the live region clips more pixels than PIX has. -/
theorem inv2d_count_le {s : State} (hd : DimsAccepted s) (X : Subbands) :
    (inv2d (subh s) (subw s) X).2 ≤ s.cfg.maxh * s.cfg.maxw := by
  obtain ⟨hpadh, hpadw, -, -, -, -, -, -, hh, hw⟩ := dims_bounds hd
  calc (inv2d (subh s) (subw s) X).2 ≤ 2 * subh s * (2 * subw s) := countClipped_le _ _ _
    _ ≤ s.cfg.maxh * s.cfg.maxw := Nat.mul_le_mul (hh ▸ hpadh) (hw ▸ hpadw)

/-- A command leaves a coherent result group, whatever stood there before. -/
theorem CommandEffect.resultOk {i : Instr} {s t : State} (h : CommandEffect i s t) : ResultOk t := by
  cases h with
  | failed e i0 i1 => exact resultOk_fail e i0 i1 s
  | nop => exact resultOk_finish (Nat.zero_le _)
  | fwd => exact resultOk_finish (Nat.zero_le _)
  | inv hd => exact resultOk_finish (inv2d_count_le hd _)
  | splice => exact resultOk_finish (Nat.zero_le _)
  | unsplice => exact resultOk_deliver _ _
  | embed hd => exact resultOk_finish (inv2d_count_le hd _)
  | extract => exact resultOk_deliver _ _

/-! ## The invariant along a step -/

/-- The invariant says nothing of the operand registers, PEND, ACCERR, the word last read or the script. -/
theorem StateInv.of_frame {s : State} (h : StateInv s) (ih iw : BitVec 16) (n : BitVec 24) (p : Option Word) (a : Bool)
    (d : Word) (l : List HostEvent) :
    StateInv { s with imgh := ih, imgw := iw, msglen := n, pend := p, accerr := a, dr := d, script := l } :=
  { h with }

protected theorem StateInv.execWord {s t : State} (hs : StateInv s) {w : Word} (h : execWord w s = .next t) :
    StateInv t := by
  obtain ⟨hm, -⟩ := stateInv_iff.1 hs
  rcases execWord_effect h with rfl | ⟨i, -, hi⟩
  · exact stateInv_iff.2 ⟨hm.fail _ _ _, resultOk_fail _ _ _ _⟩
  · exact stateInv_iff.2 ⟨hi.memoriesOk hm, hi.resultOk⟩

protected theorem StateInv.engineStep {s t : State} (hs : StateInv s) (h : engineStep s = .next t) : StateInv t := by
  rcases engineStep_cases h with rfl | ⟨w, v, hv, rfl⟩
  · exact hs
  · exact (hs.execWord hv).of_frame v.imgh v.imgw v.msglen none v.accerr v.dr v.script

/-- R230: the reset input leaves no listed cell, and a result group of 0. -/
theorem stateInv_resetBlock (s : State) : StateInv (resetBlock s) :=
  stateInv_iff.2
    ⟨{ pix := .nil _
       band := fun b => by cases b <;> exact .nil _
       msg := .nil _ },
     { err_le := Nat.zero_le _
       info_zero := fun _ => ⟨rfl, rfl⟩
       term_err := nofun
       clip_le := Nat.zero_le _
       clip_err := fun h => absurd rfl h }⟩

protected theorem MemoriesOk.writeCell_pix {s : State} (hm : MemoriesOk s) (d : Word) {row col : Nat}
    (hr : row < s.cfg.maxh) (hc : col < s.cfg.maxw) : MemoriesOk (writeCell s d (.pix row col)) :=
  ⟨hm.pix.write (pixCell_cellKey hr hc), hm.band, hm.msg⟩

protected theorem MemoriesOk.writeCell_coef {s : State} (hm : MemoriesOk s) (d : Word) (b : Band) {row col : Nat}
    (hr : row < maxhc s.cfg) (hc : col < maxwc s.cfg) : MemoriesOk (writeCell s d (.coef b row col)) :=
  hm.setBand b ((hm.band b).write (bandCell_cellKey hr hc (fitsCell_signedLow s.cfg d)))

protected theorem MemoriesOk.writeCell_msg {s : State} (hm : MemoriesOk s) (d : Word) {i : Nat} (hi : i < msgn s.cfg) :
    MemoriesOk (writeCell s d (.msg i)) :=
  ⟨hm.pix, hm.band, hm.msg.write hi⟩

protected theorem ResultOk.writeCell {s : State} (hr : ResultOk s) (d : Word) (n : CellName) :
    ResultOk (writeCell s d n) := by
  cases n with
  | reg r => cases r <;> exact { hr with }
  | coef b => cases b <;> exact { hr with }
  | _ => exact { hr with }

/-- A host write stores the low bits of a word into a cell that exists, or writes an operand register or PEND. -/
protected theorem StateInv.writeCell {s : State} (hs : StateInv s) (d : Word) {n : CellName}
    (hn : cellExists s.cfg n = true) : StateInv (writeCell s d n) := by
  obtain ⟨hm, hr⟩ := stateInv_iff.1 hs
  cases n with
  | reg r => cases r <;> exact hs.of_frame _ _ _ _ _ _ _
  | pix row col =>
    obtain ⟨hrow, hcol⟩ := cellExists_pix.1 hn
    exact stateInv_iff.2 ⟨hm.writeCell_pix d hrow hcol, hr.writeCell d _⟩
  | coef b row col =>
    obtain ⟨hrow, hcol⟩ := cellExists_coef.1 hn
    exact stateInv_iff.2 ⟨hm.writeCell_coef d b hrow hcol, hr.writeCell d _⟩
  | msg i => exact stateInv_iff.2 ⟨hm.writeCell_msg d (cellExists_msg.1 hn), hr.writeCell d _⟩

protected theorem StateInv.accessFault {s : State} (hs : StateInv s) : StateInv (accessFault s) :=
  hs.of_frame s.imgh s.imgw s.msglen s.pend true s.dr s.script

/-- Every event keeps the invariant. -/
protected theorem StateInv.eventStep {s t : State} (hs : StateInv s) {e : HostEvent} (h : eventStep e s = .next t) :
    StateInv t := by
  cases e with
  | read a =>
    cases h
    have hread : StateInv (hostRead s a).1 := by
      rcases hostRead_cases s a with hr | hr
      · exact hr.symm ▸ hs
      · exact hr.symm ▸ hs.accessFault
    exact hread.of_frame _ _ _ _ _ _ _
  | write a d =>
    cases h
    rcases hostWrite_cases s a d with hw | ⟨n, -, hn, hw⟩
    · exact hw.symm ▸ hs.accessFault
    · exact hw.symm ▸ hs.writeCell d (cellExists_of_cellOfAddr hn)
  | reset =>
    cases h
    exact stateInv_resetBlock s
  | engine => exact hs.engineStep h

/-- Settles O59: the events of the host, the reset input and the engine each keep the two halves of the invariant. -/
theorem everyStepKeepsTheInvariant : Obligations.EveryStepKeepsTheInvariant := by
  unfold Obligations.EveryStepKeepsTheInvariant
  intro s t hs h
  obtain ⟨e, hstep, -⟩ := step_cases s
  have htail : StateInv { s with script := s.script.tail } := hs.of_frame _ _ _ _ _ _ _
  exact htail.eventStep (hstep.symm.trans h)

end Sys2Proof.Machine
end

section
/-! The encoding (R90 to R92, R97): the legal words are the words of the commands, and every other word is rejected. -/

namespace Sys2Proof.Machine

/-! ## The operation code and the reasons of a rejection (R91, R92; log entry 8) -/

/-- R91: the table ends at the operation code 6. -/
theorem instrOfOp_eq_none_iff : ∀ {n : Nat}, instrOfOp n = none ↔ 6 < n
  | 0 | 1 | 2 | 3 | 4 | 5 | 6 => by decide
  | n + 7 => iff_of_true rfl (by omega)

theorem decode_of_reservedBits {w : Word} (h : zeroField w ≠ 0) : decode w = .error (.reservedBits w) := if_neg h

theorem decode_of_reservedOp {w : Word} (hz : zeroField w = 0) (hop : 6 < (opField w).toNat) :
    decode w = .error (.reservedOp w) := by
  rw [decode, if_pos hz, instrOfOp_eq_none_iff.2 hop]

/-- Settles O1. -/
theorem tableWordsDecode : Obligations.TableWordsDecode := by
  unfold Obligations.TableWordsDecode
  exact ⟨decode_encode .nop, decode_encode .fwd, decode_encode .inv, decode_encode .splice, decode_encode .unsplice,
    decode_encode .embed, decode_encode .extract, decode_of_reservedOp (by decide) (by decide),
    decode_of_reservedBits (by decide), decode_of_reservedBits (by decide)⟩

/-! ## Legal and illegal words (R92, R97) -/

theorem decode_eq_ok_iff {w : Word} {i : Instr} : decode w = .ok i ↔ w = encode i :=
  ⟨decode_ok, fun h => h ▸ decode_encode i⟩

theorem decode_of_illegal {w : Word} (h : ∀ i, w ≠ encode i) : ∃ e, decode w = .error e := by
  cases hd : decode w with
  | error e => exact ⟨e, rfl⟩
  | ok i => exact absurd (decode_ok hd) (h i)

theorem execWord_of_illegal {w : Word} (h : ∀ i, w ≠ encode i) (s : State) :
    execWord w s = .next (fail .illegalCommand w 0 s) := by
  obtain ⟨e, he⟩ := decode_of_illegal h
  rw [execWord, he]

/-- R90, R92: with bits 31:4 zero, the word as a number is its operation code. -/
theorem wellFormedWord_iff_toNat_le {w : Word} : wellFormedWord w = true ↔ w.toNat ≤ 6 := by
  simp only [wellFormedWord, zeroFieldOk, opFieldOk, Bool.and_eq_true, decide_eq_true_eq]
  omega

/-- R92: the legal words are those the table lists. -/
theorem wellFormedWord_iff_exists_encode {w : Word} : wellFormedWord w = true ↔ ∃ i, w = encode i := by
  rw [wellFormedWord_iff_toNat_le]
  constructor
  · intro hle
    cases hop : instrOfOp w.toNat with
    | none => exact absurd (instrOfOp_eq_none_iff.1 hop) (Nat.not_lt.2 hle)
    | some i => exact ⟨i, BitVec.eq_of_toNat_eq (instrOfOp_some hop)⟩
  · rintro ⟨i, rfl⟩
    cases i <;> decide

/-- Settles O2. -/
theorem decodeAndEncodeAgree : Obligations.DecodeAndEncodeAgree := by
  unfold Obligations.DecodeAndEncodeAgree
  exact ⟨fun _ _ => decode_eq_ok_iff, fun _ => decode_of_illegal, fun _ => wellFormedWord_iff_exists_encode,
    fun i => execWord_of_decode (decode_encode i), fun _ s h => execWord_of_illegal h s⟩

end Sys2Proof.Machine
end

section
/-! The lifting arithmetic (R121 to R126, R128): the two transforms are inverse to each other, the ranges of their
results, and what they do to equal neighbours and to a change of one coefficient. -/

namespace Sys2Proof.Machine

/-! ## One lifting step (R112, R122) -/

theorem unlift_lift (a b : Int) : unlift (lift a b).1 (lift a b).2 = (a, b) := by
  simp only [lift, unlift, fdiv2_eq, Prod.mk.injEq]
  omega

theorem lift_unlift (s d : Int) : lift (unlift s d).1 (unlift s d).2 = (s, d) := by
  simp only [lift, unlift, fdiv2_eq, Prod.mk.injEq]
  omega

theorem unlift_zero (s : Int) : unlift s 0 = (s, s) := by
  simp only [unlift, fdiv2_eq, Prod.mk.injEq]
  omega

/-- Settles O20. -/
theorem liftAndUnliftInverse : Obligations.LiftAndUnliftInverse := by
  unfold Obligations.LiftAndUnliftInverse
  exact ⟨unlift_lift, lift_unlift⟩

/-! ## The stages of the transforms, one pair of cells at a time (R114, R115, R117, R118) -/

@[simp] theorem invRows_even (low high : Mat) (k j : Nat) :
    invRows low high (2 * k) j = (unlift (low k j) (high k j)).1 := by
  simp [invRows]

@[simp] theorem invRows_odd (low high : Mat) (k j : Nat) :
    invRows low high (2 * k + 1) j = (unlift (low k j) (high k j)).2 := by
  simp [invRows, odd_div, odd_mod]

@[simp] theorem invCols_even (S D : Mat) (r k : Nat) : invCols S D r (2 * k) = (unlift (S r k) (D r k)).1 := by
  simp [invCols]

@[simp] theorem invCols_odd (S D : Mat) (r k : Nat) : invCols S D r (2 * k + 1) = (unlift (S r k) (D r k)).2 := by
  simp [invCols, odd_div, odd_mod]

theorem invCols_fwd (P : Mat) : invCols (fwdS P) (fwdD P) = P := by
  funext r c
  rcases pair_index c with hc | hc <;> rw [hc]
  · rw [invCols_even, fwdS, fwdD, unlift_lift]
  · rw [invCols_odd, fwdS, fwdD, unlift_lift]

theorem invRows_fwd (P : Mat) : invRows (fwdLow P) (fwdHigh P) = P := by
  funext r c
  rcases pair_index r with hr | hr <;> rw [hr]
  · rw [invRows_even, fwdLow, fwdHigh, unlift_lift]
  · rw [invRows_odd, fwdLow, fwdHigh, unlift_lift]

theorem fwdS_invCols (S D : Mat) : fwdS (invCols S D) = S := by
  funext r k
  rw [fwdS, invCols_even, invCols_odd, lift_unlift]

theorem fwdD_invCols (S D : Mat) : fwdD (invCols S D) = D := by
  funext r k
  rw [fwdD, invCols_even, invCols_odd, lift_unlift]

theorem fwdLow_invRows (low high : Mat) : fwdLow (invRows low high) = low := by
  funext k j
  rw [fwdLow, invRows_even, invRows_odd, lift_unlift]

theorem fwdHigh_invRows (low high : Mat) : fwdHigh (invRows low high) = high := by
  funext k j
  rw [fwdHigh, invRows_even, invRows_odd, lift_unlift]

/-! ## The forward transform without its padding -/

/-- The two forward stages on a matrix that needs no padding (R114, R115). -/
def analyse (P : Mat) : Subbands where
  ll := fwdLow (fwdS P)
  lh := fwdHigh (fwdS P)
  hl := fwdLow (fwdD P)
  hh := fwdHigh (fwdD P)

/-- R116: the forward transform is the two stages on the padded matrix. -/
theorem fwd2d_eq_analyse (h w : Nat) (P : Mat) : fwd2d h w P = analyse (pad h w P) := rfl

theorem inv2dRaw_analyse (P : Mat) : inv2dRaw (analyse P) = P := by
  simp only [inv2dRaw, analyse, invRows_fwd, invCols_fwd]

theorem analyse_inv2dRaw (X : Subbands) : analyse (inv2dRaw X) = X := by
  simp only [inv2dRaw, analyse, fwdS_invCols, fwdD_invCols, fwdLow_invRows, fwdHigh_invRows]

/-- Two quadruples have the same four coefficients at (k, j). -/
def SameCoefs (X Y : Subbands) (k j : Nat) : Prop :=
  X.ll k j = Y.ll k j ∧ X.lh k j = Y.lh k j ∧ X.hl k j = Y.hl k j ∧ X.hh k j = Y.hh k j

/-- R116: the coefficients at (k, j) are the block formula on the block at (k, j). -/
theorem analyse_coefs (P : Mat) (k j : Nat) :
    ((analyse P).ll k j, (analyse P).lh k j, (analyse P).hl k j, (analyse P).hh k j) =
      blockForward (P (2 * k) (2 * j)) (P (2 * k) (2 * j + 1)) (P (2 * k + 1) (2 * j)) (P (2 * k + 1) (2 * j + 1)) :=
  rfl

/-- The forward stages are local to a block. -/
theorem sameCoefs_analyse {P Q : Mat} {k j : Nat} (hb : blockAt P k j = blockAt Q k j) :
    SameCoefs (analyse P) (analyse Q) k j := by
  simp only [blockAt, Prod.mk.injEq] at hb
  obtain ⟨ha, hb, hc, hd⟩ := hb
  have hcoefs := analyse_coefs P k j
  rw [ha, hb, hc, hd, ← analyse_coefs] at hcoefs
  simpa only [SameCoefs, Prod.mk.injEq] using hcoefs

/-- Matrices that agree below row 2h and column 2w have the same blocks there. -/
theorem blockAt_congr {h w : Nat} {P Q : Mat} (he : ∀ r c, r < 2 * h → c < 2 * w → P r c = Q r c) {k j : Nat}
    (hk : k < h) (hj : j < w) : blockAt P k j = blockAt Q k j := by
  simp only [blockAt, Prod.mk.injEq]
  exact ⟨he _ _ (by omega) (by omega), he _ _ (by omega) (by omega), he _ _ (by omega) (by omega),
    he _ _ (by omega) (by omega)⟩

/-! ## The padding (R113) -/

theorem pad_of_lt {h w : Nat} (P : Mat) {r c : Nat} (hr : r < h) (hc : c < w) : pad h w P r c = P r c := by
  rw [pad, Nat.min_eq_left (by omega), Nat.min_eq_left (by omega)]

/-- Every cell of the padded matrix is a cell of the matrix. -/
theorem pad_cell {h w : Nat} (hh : 1 ≤ h) (hw : 1 ≤ w) {P : Mat} {p : Int → Prop}
    (hp : ∀ r c, r < h → c < w → p (P r c)) (r c : Nat) : p (pad h w P r c) :=
  hp _ _ (by omega) (by omega)

/-- The rows from the last one on are equal. -/
theorem pad_row_of_ge {h w : Nat} (P : Mat) {r r' : Nat} (hr : h - 1 ≤ r) (hr' : h - 1 ≤ r') (c : Nat) :
    pad h w P r c = pad h w P r' c := by
  rw [pad, pad, Nat.min_eq_right hr, Nat.min_eq_right hr']

theorem pad_col_of_ge {h w : Nat} (P : Mat) {c c' : Nat} (hc : w - 1 ≤ c) (hc' : w - 1 ≤ c') (r : Nat) :
    pad h w P r c = pad h w P r c' := by
  rw [pad, pad, Nat.min_eq_right hc, Nat.min_eq_right hc']

/-! ## Perfect reconstruction, both ways (R123, R124) -/

theorem inv2dRaw_fwd2d (h w : Nat) (P : Mat) : inv2dRaw (fwd2d h w P) = pad h w P := inv2dRaw_analyse _

theorem inRange_iff {v : Int} : outOfRange v = false ↔ 0 ≤ v ∧ v ≤ 255 := by
  simp only [outOfRange, decide_eq_false_iff_not]
  omega

/-- Settles O21: the stages undo each other on the padded matrix, whose cells are those of the matrix. -/
theorem perfectReconstruction : Obligations.PerfectReconstruction := by
  unfold Obligations.PerfectReconstruction
  intro h w P hh hw
  refine ⟨fun r c _ _ => by rw [inv2dRaw_fwd2d], fun hpix => ?_⟩
  have hin : ∀ r c, outOfRange (pad h w P r c) = false :=
    pad_cell hh hw (p := fun v => outOfRange v = false) fun r c hr hc => inRange_iff.2 (hpix r c hr hc)
  simp only [inv2d, inv2dRaw_fwd2d]
  exact ⟨countClipped_eq_zero.2 fun r c _ _ => hin r c, fun r c _ _ => clip_of_inRange (hin r c)⟩

/-- A matrix that agrees with the raw reconstruction where the subbands lie transforms back into them. -/
theorem sameCoefs_fwd2d_of_eq_inv2dRaw {hc wc : Nat} {X : Subbands} {Q : Mat}
    (he : ∀ r c, r < 2 * hc → c < 2 * wc → Q r c = inv2dRaw X r c) {k j : Nat} (hk : k < hc) (hj : j < wc) :
    SameCoefs (fwd2d (2 * hc) (2 * wc) Q) X k j := by
  have hpad : ∀ r c, r < 2 * hc → c < 2 * wc → pad (2 * hc) (2 * wc) Q r c = inv2dRaw X r c :=
    fun r c hr hc => (pad_of_lt Q hr hc).trans (he r c hr hc)
  have hsame := sameCoefs_analyse (blockAt_congr hpad hk hj)
  rwa [analyse_inv2dRaw] at hsame

/-- Settles O22. -/
theorem forwardAfterInverse : Obligations.ForwardAfterInverse := by
  unfold Obligations.ForwardAfterInverse
  intro hc wc X k j hk hj
  refine ⟨sameCoefs_fwd2d_of_eq_inv2dRaw (fun _ _ _ _ => rfl) hk hj, fun hclip => ?_⟩
  have hin := countClipped_eq_zero.1 hclip
  exact sameCoefs_fwd2d_of_eq_inv2dRaw (fun r c hr hc => clip_of_inRange (hin r c hr hc)) hk hj

/-! ## Ranges of the stages (R121, R125) -/

/-- Every cell of a matrix lies between two bounds. -/
def Within (lo hi : Int) (P : Mat) : Prop := ∀ r c, lo ≤ P r c ∧ P r c ≤ hi

/-- An average lies where its two numbers lie. -/
theorem lift_fst_within {lo hi a b : Int} (ha : lo ≤ a ∧ a ≤ hi) (hb : lo ≤ b ∧ b ≤ hi) :
    lo ≤ (lift a b).1 ∧ (lift a b).1 ≤ hi := by
  simp only [lift, fdiv2_eq]
  omega

theorem lift_snd_within {lo hi a b : Int} (ha : lo ≤ a ∧ a ≤ hi) (hb : lo ≤ b ∧ b ≤ hi) :
    lo - hi ≤ (lift a b).2 ∧ (lift a b).2 ≤ hi - lo := by
  simp only [lift]
  omega

theorem Within.fwdS {lo hi : Int} {P : Mat} (h : Within lo hi P) : Within lo hi (fwdS P) :=
  fun _ _ => lift_fst_within (h _ _) (h _ _)

theorem Within.fwdD {lo hi : Int} {P : Mat} (h : Within lo hi P) : Within (lo - hi) (hi - lo) (fwdD P) :=
  fun _ _ => lift_snd_within (h _ _) (h _ _)

theorem Within.fwdLow {lo hi : Int} {P : Mat} (h : Within lo hi P) : Within lo hi (fwdLow P) :=
  fun _ _ => lift_fst_within (h _ _) (h _ _)

theorem Within.fwdHigh {lo hi : Int} {P : Mat} (h : Within lo hi P) : Within (lo - hi) (hi - lo) (fwdHigh P) :=
  fun _ _ => lift_snd_within (h _ _) (h _ _)

/-- A 2 × 2 matrix needs no padding, so its transform is the block formula. -/
theorem fwd2d_blockMatrix (a b c d : Int) : blockForward a b c d =
    ((fwd2d 2 2 (blockMatrix a b c d)).ll 0 0, (fwd2d 2 2 (blockMatrix a b c d)).lh 0 0,
      (fwd2d 2 2 (blockMatrix a b c d)).hl 0 0, (fwd2d 2 2 (blockMatrix a b c d)).hh 0 0) :=
  rfl

/-- Settles O23: each stage keeps the range in its averages and doubles it in its differences. -/
theorem forwardRanges : Obligations.ForwardRanges := by
  unfold Obligations.ForwardRanges
  refine ⟨fun h w P hh hw hpix k j => ?_, by decide, by decide, by decide, by decide, by decide, by decide, by decide,
    by decide, fwd2d_blockMatrix, by decide, by decide, by decide, by decide⟩
  have hP : Within 0 255 (pad h w P) := pad_cell hh hw (p := fun v => 0 ≤ v ∧ v ≤ 255) hpix
  exact ⟨hP.fwdS k j, hP.fwdD k j, hP.fwdS.fwdLow k j, hP.fwdS.fwdHigh k j, hP.fwdD.fwdLow k j,
    hP.fwdD.fwdHigh k j⟩

/-- R125, one step: on numbers from -2m to 2m - 1, `unlift` adds half the range at either end, and its second half
never takes the least value. -/
theorem unlift_within {m s d : Int} (hs : -(2 * m) ≤ s ∧ s ≤ 2 * m - 1) (hd : -(2 * m) ≤ d ∧ d ≤ 2 * m - 1) :
    (-(3 * m) ≤ (unlift s d).1 ∧ (unlift s d).1 ≤ 3 * m - 1) ∧
    (-(3 * m) + 1 ≤ (unlift s d).2 ∧ (unlift s d).2 ≤ 3 * m - 1) := by
  simp only [unlift, fdiv2_eq]
  omega

theorem within_invRows {m : Int} {low high : Mat} (hl : Within (-(2 * m)) (2 * m - 1) low)
    (hh : Within (-(2 * m)) (2 * m - 1) high) : Within (-(3 * m)) (3 * m - 1) (invRows low high) := by
  intro r j
  obtain ⟨heven, hodd, hodd'⟩ := unlift_within (hl (r / 2) j) (hh (r / 2) j)
  rw [invRows]
  split
  · exact heven
  · exact ⟨by omega, hodd'⟩

theorem within_invCols {m : Int} {S D : Mat} (hS : Within (-(2 * m)) (2 * m - 1) S)
    (hD : Within (-(2 * m)) (2 * m - 1) D) (r c : Nat) :
    (-(3 * m) ≤ invCols S D r c ∧ invCols S D r c ≤ 3 * m - 1) ∧ (c % 2 = 1 → -(3 * m) + 1 ≤ invCols S D r c) := by
  obtain ⟨heven, hodd, hodd'⟩ := unlift_within (hS r (c / 2)) (hD r (c / 2))
  rw [invCols]
  split
  · exact ⟨heven, fun hc => by omega⟩
  · exact ⟨⟨by omega, hodd'⟩, fun _ => hodd⟩

/-- The bounds of `unlift_within` on its first half are reached. -/
theorem unlift_least (m : Int) : (unlift (-(2 * m)) (-(2 * m))).1 = -(3 * m) := by
  simp only [unlift, fdiv2_eq]
  omega

theorem unlift_greatest (m : Int) : (unlift (2 * m - 1) (2 * m - 1)).1 = 3 * m - 1 := by
  simp only [unlift, fdiv2_eq]
  omega

/-- R119: the first cell of a block takes two steps of `unlift`. -/
theorem blockInverse_fst (ll lh hl hh : Int) :
    (blockInverse ll lh hl hh).1 = (unlift (unlift ll lh).1 (unlift hl hh).1).1 := rfl

/-- Settles O24: M is a multiple of 4, so that both steps halve a range of even ends. -/
theorem inverseRanges : Obligations.InverseRanges := by
  unfold Obligations.InverseRanges
  intro cw M hcw hM
  obtain ⟨n, hn⟩ : ∃ n : Int, M = 2 * (2 * n) := by
    obtain ⟨e, rfl⟩ : ∃ e, cw = e + 3 := ⟨cw - 3, by omega⟩
    exact ⟨2 ^ e, by rw [hM, show e + 3 - 1 = e + 2 from rfl, pow_add]; ring⟩
  have hN : 3 * (2 * n) = 2 * (3 * n) := by ring
  have hfirst := unlift_least (2 * n)
  have hlast := unlift_greatest (2 * n)
  rw [← hn, hN] at hfirst hlast
  refine ⟨fun X hX r c => ?_, by omega, by omega, ?_, ?_⟩
  · obtain ⟨hll, hlh, hhl, hhh⟩ : Within (-M) (M - 1) X.ll ∧ Within (-M) (M - 1) X.lh ∧
        Within (-M) (M - 1) X.hl ∧ Within (-M) (M - 1) X.hh := by
      simpa only [Within, ← forall_and] using hX
    rw [hn] at hll hlh hhl hhh
    have hS := within_invRows hll hlh
    have hD := within_invRows hhl hhh
    rw [hN] at hS hD
    obtain ⟨⟨hlo, hhi⟩, hodd⟩ := within_invCols hS hD r c
    have hSrc := hS r c
    have hDrc := hD r c
    rw [inv2dRaw]
    exact ⟨by omega, by omega, by omega, fun hc => by have := hodd hc; omega⟩
  · rw [blockInverse_fst, hfirst, unlift_least]
    omega
  · rw [blockInverse_fst, hlast, unlift_greatest]
    omega

/-! ## Equal neighbours (R126) -/

/-- Equal rows of a pair have no vertical difference. -/
theorem analyse_of_equal_rows {P : Mat} {k : Nat} (h : ∀ c, P (2 * k) c = P (2 * k + 1) c) (j : Nat) :
    (analyse P).lh k j = 0 ∧ (analyse P).hh k j = 0 := by
  simp only [analyse, fwdHigh, fwdS, fwdD, lift, h, sub_self, and_self]

/-- Equal columns of a pair have no horizontal difference. -/
theorem analyse_of_equal_cols {P : Mat} {j : Nat} (h : ∀ r, P r (2 * j) = P r (2 * j + 1)) (k : Nat) :
    (analyse P).hl k j = 0 ∧ (analyse P).hh k j = 0 := by
  simp only [analyse, fwdLow, fwdHigh, fwdD, lift, h, sub_self, fdiv2_eq]
  decide

theorem fwd2d_last_row {h : Nat} (w : Nat) (P : Mat) {k : Nat} (hk : h = 2 * k + 1) (j : Nat) :
    (fwd2d h w P).lh k j = 0 ∧ (fwd2d h w P).hh k j = 0 :=
  analyse_of_equal_rows (fun c => pad_row_of_ge P (by omega) (by omega) c) j

theorem fwd2d_last_col (h : Nat) {w : Nat} (P : Mat) {j : Nat} (hj : w = 2 * j + 1) (k : Nat) :
    (fwd2d h w P).hl k j = 0 ∧ (fwd2d h w P).hh k j = 0 :=
  analyse_of_equal_cols (fun r => pad_col_of_ge P (by omega) (by omega) r) k

theorem inv2dRaw_equal_rows {X : Subbands} {k : Nat} (h : ∀ j, X.lh k j = 0 ∧ X.hh k j = 0) (c : Nat) :
    inv2dRaw X (2 * k) c = inv2dRaw X (2 * k + 1) c := by
  have hS : ∀ j, invRows X.ll X.lh (2 * k) j = invRows X.ll X.lh (2 * k + 1) j := fun j => by
    rw [invRows_even, invRows_odd, (h j).1, unlift_zero]
  have hD : ∀ j, invRows X.hl X.hh (2 * k) j = invRows X.hl X.hh (2 * k + 1) j := fun j => by
    rw [invRows_even, invRows_odd, (h j).2, unlift_zero]
  simp only [inv2dRaw, invCols, hS, hD]

theorem inv2dRaw_equal_cols {X : Subbands} {j : Nat} (h : ∀ k, X.hl k j = 0 ∧ X.hh k j = 0) (r : Nat) :
    inv2dRaw X r (2 * j) = inv2dRaw X r (2 * j + 1) := by
  have hD : invRows X.hl X.hh r j = 0 := by
    obtain ⟨hhl, hhh⟩ := h (r / 2)
    rw [invRows, hhl, hhh, unlift_zero, ite_self]
  rw [inv2dRaw, invCols_even, invCols_odd, hD, unlift_zero]

/-- A matrix that holds its own padding is padded as the cropped one is. -/
theorem pad_of_replicated {h w : Nat} {P : Mat} (hrow : h % 2 = 1 → ∀ c, P (h - 1) c = P h c)
    (hcol : w % 2 = 1 → ∀ r, P r (w - 1) = P r w) {r c : Nat} (hr : r < h + h % 2) (hc : c < w + w % 2) :
    pad (h + h % 2) (w + w % 2) P r c = pad h w P r c := by
  have hr' : ∀ q, P r q = P (min r (h - 1)) q := by
    rcases Nat.lt_or_ge r h with hlt | hge
    · rw [Nat.min_eq_left (by omega)]
      exact fun _ => rfl
    · obtain rfl : r = h := by omega
      rw [Nat.min_eq_right (by omega)]
      exact fun q => (hrow (by omega) q).symm
  have hc' : ∀ q, P q c = P q (min c (w - 1)) := by
    rcases Nat.lt_or_ge c w with hlt | hge
    · rw [Nat.min_eq_left (by omega)]
      exact fun _ => rfl
    · obtain rfl : c = w := by omega
      rw [Nat.min_eq_right (by omega)]
      exact fun q => (hcol (by omega) q).symm
  rw [pad_of_lt P hr hc, hr', hc', pad]

/-- Settles O25. -/
theorem replicatedEdges : Obligations.ReplicatedEdges := by
  unfold Obligations.ReplicatedEdges
  intro h w P X
  refine ⟨fun hh => fwd2d_last_row w P (by omega), fun hw => fwd2d_last_col h P (by omega), fun k hz c => ?_,
    fun j hz r => ?_, fun hrow hcol k j hk hj => ?_⟩
  · have heq := inv2dRaw_equal_rows hz c
    exact ⟨heq, congrArg clip heq⟩
  · have heq := inv2dRaw_equal_cols hz r
    exact ⟨heq, congrArg clip heq⟩
  · have hpad : ∀ r c, r < 2 * (k + 1) → c < 2 * (j + 1) →
        pad (h + h % 2) (w + w % 2) P r c = pad h w P r c :=
      fun r c hr hc => pad_of_replicated hrow hcol (by omega) (by omega)
    exact sameCoefs_analyse (blockAt_congr hpad k.lt_succ_self j.lt_succ_self)

/-! ## A change of LL (R128) -/

/-- LL enters a raw cell as a summand of its own. -/
theorem inv2dRaw_eq_ll_add (X : Subbands) (r c : Nat) :
    inv2dRaw X r c = X.ll (r / 2) (c / 2) + inv2dRaw { X with ll := fun _ _ => 0 } r c := by
  simp only [inv2dRaw, invCols, invRows, unlift]
  split <;> split <;> ring

/-- Settles O27. -/
theorem unitChangeShiftsBlock : Obligations.UnitChangeShiftsBlock := by
  unfold Obligations.UnitChangeShiftsBlock
  intro X Y k j δ hlh hhl hhh hat helse r c
  have hrest : inv2dRaw { Y with ll := fun _ _ => 0 } r c = inv2dRaw { X with ll := fun _ _ => 0 } r c := by
    rw [hlh, hhl, hhh]
  rw [inv2dRaw_eq_ll_add X, inv2dRaw_eq_ll_add Y, hrest]
  split
  · rename_i hblock
    obtain ⟨hk, hj⟩ := hblock
    rw [hk, hj, hat]
    ring
  · rename_i hblock
    rw [helse _ _ fun he => hblock (Prod.mk.inj he)]

end Sys2Proof.Machine
end

section
/-! Least-significant bits (R127), the bits of a message (R130, R131) and the group decoder (R132, R133). -/

namespace Sys2Proof.Machine

/-! ## Bit 0 of a coefficient (R127) -/

theorem setlsb_ediv_two (c : Int) (b : Bool) : setlsb c b / 2 = c / 2 := by
  rw [setlsb_eq]
  split <;> omega

/-- The bits above bit 0 are those of the halved coefficient. -/
theorem getLsbD_setlsb {cw n : Nat} (hn : 1 ≤ n) (c : Int) (b : Bool) :
    (BitVec.ofInt cw (setlsb c b)).getLsbD n = (BitVec.ofInt cw c).getLsbD n := by
  rcases Nat.lt_or_ge n cw with hlt | hge
  · obtain ⟨m, rfl⟩ : ∃ m, n = m + 1 := ⟨n - 1, by omega⟩
    have hdiv : ∀ v : Int, v / 2 ^ (m + 1) = v / 2 / 2 ^ m := fun v => by
      rw [Int.ediv_ediv_of_nonneg (by decide), pow_succ']
    rw [getLsbD_ofInt _ hlt, getLsbD_ofInt _ hlt, hdiv, hdiv, setlsb_ediv_two]
  · rw [BitVec.getLsbD_of_ge _ _ hge, BitVec.getLsbD_of_ge _ _ hge]

theorem lsb_eq_getLsbD {cw : Nat} (hcw : 0 < cw) (c : Int) : lsb c = (BitVec.ofInt cw c).getLsbD 0 := by
  rw [getLsbD_ofInt 0 hcw, lsb_eq, pow_zero, Int.ediv_one]

theorem setlsb_lsb (c : Int) : setlsb c (lsb c) = c := by
  rw [setlsb_eq, lsb_eq]
  simp only [decide_eq_true_eq]
  split <;> omega

theorem setlsb_setlsb (c : Int) (b b' : Bool) : setlsb (setlsb c b) b' = setlsb c b' := by
  have heven : setlsb c b - setlsb c b % 2 = c - c % 2 := by
    have := setlsb_ediv_two c b
    omega
  rw [setlsb_eq (setlsb c b), heven, ← setlsb_eq]

/-- Where replacing bit 0 moves a coefficient, by the bit it had and the bit it gets. -/
theorem setlsb_sub_self (c : Int) (b : Bool) : setlsb c b - c = (if b then 1 else 0) - c % 2 := by
  rw [setlsb_eq]
  ring

theorem setlsb_moves (c : Int) (b : Bool) :
    (setlsb c b - c = 1 ↔ c % 2 = 0 ∧ b = true) ∧ (setlsb c b - c = -1 ↔ c % 2 = 1 ∧ b = false) ∧
    (setlsb c b - c = -1 ∨ setlsb c b - c = 0 ∨ setlsb c b - c = 1) := by
  rw [setlsb_sub_self]
  rcases Int.emod_two_eq_zero_or_one c with hc | hc <;> cases b <;> simp [hc]

/-- Settles O26. -/
theorem setLsbReplacesBitZero : Obligations.SetLsbReplacesBitZero := by
  unfold Obligations.SetLsbReplacesBitZero
  intro cw c b hcw hlo hhi
  obtain ⟨hup, hdown, hstep⟩ := setlsb_moves c b
  refine ⟨lsb_eq_getLsbD (by omega) c, ?_, fun n hn => getLsbD_setlsb hn c b, lsb_setlsb c b, setlsb_lsb c,
    setlsb_setlsb c b, hup, hdown, hstep, setlsb_range (by omega) b hlo hhi⟩
  rw [← lsb_eq_getLsbD (by omega), lsb_setlsb]

/-! ## The elements of a bitstream (R130, R131) -/

/-- Element i of the bits of a message is bit 7 - i mod 8 of byte i div 8. -/
theorem getElem?_bitstream {m : List Byte} {i : Nat} {v : Byte} (hv : m[i / 8]? = some v) :
    (bitstream m)[i]? = some (decide (v.toNat / 2 ^ (7 - i % 8) % 2 = 1)) := by
  induction m generalizing i with
  | nil => cases hv
  | cons u m ih =>
    rw [bitstream_cons]
    rcases Nat.lt_or_ge i 8 with hlt | hge
    · have hi : i < (byteBits u).length := by rwa [length_byteBits]
      rw [Nat.div_eq_of_lt hlt, List.getElem?_cons_zero, Option.some.injEq] at hv
      rw [List.getElem?_append_left hi, List.getElem?_eq_getElem hi, getElem_byteBits, hv, Nat.mod_eq_of_lt hlt]
    · obtain ⟨n, rfl⟩ : ∃ n, i = n + 8 := ⟨i - 8, by omega⟩
      rw [Nat.add_div_right n (by decide), List.getElem?_cons_succ] at hv
      rw [List.getElem?_append_right (by rwa [length_byteBits]), length_byteBits, Nat.add_sub_cancel, ih hv,
        Nat.add_mod_right]

theorem getElem?_bitstream_end {m : List Byte} {i : Nat} (hlo : 8 * m.length ≤ i) (hhi : i < 8 * m.length + 8) :
    (bitstream m)[i]? = some false := by
  rw [bitstream, List.getElem?_append_right (by rwa [length_flatMap_byteBits]), length_flatMap_byteBits,
    List.getElem?_replicate_of_lt (by omega)]

/-- Settles O28. -/
theorem bitstreamElements : Obligations.BitstreamElements := by
  unfold Obligations.BitstreamElements
  exact fun m => ⟨length_bitstream m, fun _ _ => getElem?_bitstream, fun _ => getElem?_bitstream_end⟩

/-! ## The values of the groups (R132) -/

/-- The unsigned value of group q of a bit sequence, its first bit weighing 2^7. -/
def groupAt (β : List Bool) (q : Nat) : Nat :=
  ((List.range 8).map fun t => (β.getD (8 * q + t) false).toNat * 2 ^ (7 - t)).sum

/-- The sum of the weighed bits is what the decoder folds up. -/
theorem groupAt_zero {g : List Bool} (rest : List Bool) (hg : g.length = 8) :
    groupAt (g ++ rest) 0 = groupValue g := by
  match g, hg with
  | [b0, b1, b2, b3, b4, b5, b6, b7], _ =>
    have hbit : ∀ b : Bool, (if b then 1 else 0) = b.toNat := by decide
    show [b0.toNat * 2 ^ 7, b1.toNat * 2 ^ 6, b2.toNat * 2 ^ 5, b3.toNat * 2 ^ 4, b4.toNat * 2 ^ 3, b5.toNat * 2 ^ 2,
      b6.toNat * 2 ^ 1, b7.toNat * 2 ^ 0].sum = _
    simp only [groupValue, List.foldl_cons, List.foldl_nil, List.sum_cons, List.sum_nil, hbit]
    omega

theorem groupAt_succ {g : List Bool} (rest : List Bool) (hg : g.length = 8) (q : Nat) :
    groupAt (g ++ rest) (q + 1) = groupAt rest q := by
  have hskip : ∀ t, (g ++ rest).getD (8 * (q + 1) + t) false = rest.getD (8 * q + t) false := fun t => by
    rw [List.getD_append_right _ _ _ _ (by omega), hg, show 8 * (q + 1) + t - 8 = 8 * q + t by omega]
  simp only [groupAt, hskip]

theorem groupValue_lt_of_length {g : List Bool} (hg : g.length = 8) : groupValue g < 256 := by
  match g, hg with
  | [b0, b1, b2, b3, b4, b5, b6, b7], _ => exact groupValue_lt b0 b1 b2 b3 b4 b5 b6 b7

/-- R132: what a decoder delivers of `G` complete groups with the values `g`. -/
structure Delivers (g : Nat → Nat) (G : Nat) (r : List Byte × Bool) : Prop where
  bytes : ∀ i (h : i < r.1.length), (r.1[i]).toNat = g i ∧ g i ≠ 0
  stopped : r.2 = true → r.1.length < G ∧ g r.1.length = 0
  exhausted : r.2 = false → r.1.length = G

theorem Delivers.of_no_group (g : Nat → Nat) : Delivers g 0 ([], false) :=
  ⟨fun _ h => absurd h (Nat.not_lt_zero _), nofun, fun _ => rfl⟩

theorem Delivers.of_zero_group {g : Nat → Nat} {G : Nat} (h0 : g 0 = 0) : Delivers g (G + 1) ([], true) :=
  ⟨fun _ h => absurd h (Nat.not_lt_zero _), fun _ => ⟨G.succ_pos, h0⟩, nofun⟩

/-- A group that is not zero is one byte more. -/
theorem Delivers.cons {g : Nat → Nat} {G : Nat} {r : List Byte × Bool} (h0 : g 0 ≠ 0) (hlt : g 0 < 256)
    (h : Delivers (fun q => g (q + 1)) G r) : Delivers g (G + 1) (BitVec.ofNat 8 (g 0) :: r.1, r.2) where
  bytes
    | 0, _ => ⟨by rw [List.getElem_cons_zero, BitVec.toNat_ofNat, Nat.mod_eq_of_lt hlt], h0⟩
    | i + 1, hi => h.bytes i (Nat.lt_of_succ_lt_succ hi)
  stopped hr := by
    obtain ⟨hlen, hz⟩ := h.stopped hr
    exact ⟨Nat.succ_lt_succ hlen, hz⟩
  exhausted hr := congrArg Nat.succ (h.exhausted hr)

theorem delivers_decodeGroups (β : List Bool) : Delivers (groupAt β) (β.length / 8) (decodeGroups β) := by
  refine groups_induction (p := fun β => Delivers (groupAt β) (β.length / 8) (decodeGroups β)) (fun l hl => ?_)
    (fun g rest hg ih => ?_) β
  · rw [decodeGroups_short l hl, Nat.div_eq_of_lt hl]
    exact .of_no_group _
  · have hcount : (g ++ rest).length / 8 = rest.length / 8 + 1 := by
      rw [List.length_append, hg]
      omega
    have hfirst := groupAt_zero rest hg
    rw [decodeGroups_group g rest hg, hcount, ← hfirst]
    split
    · rename_i hz
      exact .of_zero_group hz
    · rename_i hnz
      refine .cons hnz (hfirst ▸ groupValue_lt_of_length hg) ?_
      simpa only [groupAt_succ rest hg] using ih

/-- Settles O29. -/
theorem decodeGroupsDelivers : Obligations.DecodeGroupsDelivers := by
  unfold Obligations.DecodeGroupsDelivers
  intro β
  obtain ⟨hbytes, hstopped, hexhausted⟩ := delivers_decodeGroups β
  exact ⟨groupAt β, fun _ => rfl, hbytes, hstopped, hexhausted⟩

/-! ## The round trip (R133) -/

theorem decodeGroups_zero_byte (rest : List Bool) : decodeGroups (byteBits 0 ++ rest) = ([], true) := by
  rw [decodeGroups_group _ _ (length_byteBits 0), groupValue_byteBits]
  exact if_pos rfl

theorem decodeGroups_byte {v : Byte} (hv : v ≠ 0) (rest : List Bool) :
    decodeGroups (byteBits v ++ rest) = (v :: (decodeGroups rest).1, (decodeGroups rest).2) := by
  have hnz : v.toNat ≠ 0 := fun h => hv (BitVec.eq_of_toNat_eq h)
  rw [decodeGroups_group _ _ (length_byteBits v), groupValue_byteBits, if_neg hnz, BitVec.ofNat_toNat,
    BitVec.setWidth_eq]

/-- The decoder returns the bytes up to the first zero byte. -/
theorem decodeGroups_message {m : List Byte} (hm : ∀ v ∈ m, v ≠ 0) (rest : List Bool) :
    decodeGroups (m.flatMap byteBits ++ (byteBits 0 ++ rest)) = (m, true) := by
  induction m with
  | nil => exact decodeGroups_zero_byte rest
  | cons v m ih =>
    obtain ⟨hv, hm⟩ := List.forall_mem_cons.1 hm
    rw [List.flatMap_cons, List.append_assoc, decodeGroups_byte hv, ih hm]

/-- Settles O30: the eight zeros that end a bitstream are a zero byte. -/
theorem bitstreamRoundTrip : Obligations.BitstreamRoundTrip := by
  unfold Obligations.BitstreamRoundTrip
  have hend : List.replicate 8 false = byteBits 0 := by decide
  refine ⟨fun m τ hm => ?_, fun m rest τ hm => ?_⟩
  · rw [bitstream, hend, List.append_assoc]
    exact decodeGroups_message hm τ
  · rw [bitstream, List.flatMap_append, List.flatMap_cons, List.append_assoc, List.append_assoc, List.append_assoc]
    exact decodeGroups_message hm _

end Sys2Proof.Machine
end

section
/-! The edges of a stego image of odd size (R126, R162). -/

namespace Sys2Proof.Machine

/-! ## The pixels an EMBED stores (R162) -/

/-- An EMBED without an error is one that ran. -/
theorem CommandEffect.embed_of_err_zero {s t : State} (h : CommandEffect .embed s t) (he : t.err = 0) :
    DimsAccepted s ∧ t = finish none false (inv2d (subh s) (subw s) (embedSubbands s)).2
      (storePix (storeSubbands s (subh s) (subw s) (embedSubbands s)) (padh s) (padw s)
        (inv2d (subh s) (subw s) (embedSubbands s)).1) := by
  cases h with
  | failed e i0 i1 => exact absurd he (errCode_ne_zero e)
  | embed hd => exact ⟨hd, rfl⟩

theorem pixAt_of_embed {s t : State} (h : exec .embed s = .next t) (he : t.err = 0) {r c : Nat} (hr : r < padh s)
    (hc : c < padw s) : pixAt t r c = BitVec.ofInt 8 (clip (inv2dRaw (embedSubbands s) r c)) := by
  obtain ⟨hd, rfl⟩ := (exec_effect h).embed_of_err_zero he
  obtain ⟨-, -, -, -, -, -, -, hw, -⟩ := dims_bounds hd
  rw [pixAt_finish, pixAt_storePix _ _ hw _ _ (hc.trans_le hw), if_pos ⟨hr, hc⟩]
  rfl

/-- Settles O38: the message goes into LL alone, and the other coefficients of the last row or column are zero. -/
theorem stegoEdgesStayReplicated : Obligations.StegoEdgesStayReplicated := by
  unfold Obligations.StegoEdgesStayReplicated
  intro s t h he
  refine ⟨fun hodd c hc => ?_, fun hodd r hr => ?_⟩
  · obtain ⟨k, hk⟩ : ∃ k, s.imgh.toNat = 2 * k + 1 := ⟨s.imgh.toNat / 2, by omega⟩
    have hrow : inv2dRaw (embedSubbands s) (2 * k) c = inv2dRaw (embedSubbands s) (2 * k + 1) c :=
      inv2dRaw_equal_rows (X := embedSubbands s) (fwd2d_last_row s.imgw.toNat (image s) hk) c
    have hpad : padh s = 2 * k + 2 := by rw [padh]; omega
    rw [hk, Nat.add_sub_cancel, pixAt_of_embed h he (by omega) hc, pixAt_of_embed h he (by omega) hc, hrow]
  · obtain ⟨j, hj⟩ : ∃ j, s.imgw.toNat = 2 * j + 1 := ⟨s.imgw.toNat / 2, by omega⟩
    have hcol : inv2dRaw (embedSubbands s) r (2 * j) = inv2dRaw (embedSubbands s) r (2 * j + 1) :=
      inv2dRaw_equal_cols (X := embedSubbands s) (fwd2d_last_col s.imgh.toNat (image s) hj) r
    have hpad : padw s = 2 * j + 2 := by rw [padw]; omega
    rw [hj, Nat.add_sub_cancel, pixAt_of_embed h he hr (by omega), pixAt_of_embed h he hr (by omega), hcol]

end Sys2Proof.Machine
end

section
/-! FWD and INV (41_transform_commands.md): what each of them stores, and INV after FWD. -/

namespace Sys2Proof.Machine

/-! ## The two completions (R141, R142) -/

/-- The completion of FWD with accepted dimensions. -/
def forwarded (s : State) : State :=
  finish none false 0 (storeSubbands s (subh s) (subw s) (forwardOfImage s))

/-- The completion of INV with accepted dimensions. -/
def reconstructed (s : State) : State :=
  finish none false (inv2d (subh s) (subw s) (subbands s)).2
    (storePix s (padh s) (padw s) (inv2d (subh s) (subw s) (subbands s)).1)

theorem exec_fwd {s : State} (hd : DimsAccepted s) : exec .fwd s = .next (forwarded s) := execFwd_accepted hd

theorem exec_inv {s : State} (hd : DimsAccepted s) : exec .inv s = .next (reconstructed s) := execInv_accepted hd

/-! ## What FWD stores (R141) -/

theorem coefAt_forwarded {s : State} (hd : DimsAccepted s) (b : Band) (k : Nat) {j : Nat} (hj : j < 1024) :
    coefAt (forwarded s) b k j =
      if k < subh s ∧ j < subw s then bandOf (forwardOfImage s) b k j else coefAt s b k j := by
  obtain ⟨-, -, -, -, -, -, hw, -⟩ := dims_bounds hd
  rw [forwarded, coefAt_finish, coefAt_storeSubbands _ _ (hw.trans (by decide)) _ _ _ hj]

theorem coefAt_forwarded_live {s : State} (hd : DimsAccepted s) (b : Band) {k j : Nat} (hk : k < subh s)
    (hj : j < subw s) : coefAt (forwarded s) b k j = bandOf (forwardOfImage s) b k j := by
  obtain ⟨-, -, -, -, -, -, hw, -⟩ := dims_bounds hd
  rw [coefAt_forwarded hd b k (by omega), if_pos ⟨hk, hj⟩]

/-- After FWD the subbands of the state are the transform, as far as they are live. -/
theorem sameCoefs_forwarded {s : State} (hd : DimsAccepted s) {k j : Nat} (hk : k < subh s) (hj : j < subw s) :
    SameCoefs (subbands (forwarded s)) (forwardOfImage s) k j :=
  ⟨coefAt_forwarded_live hd .ll hk hj, coefAt_forwarded_live hd .lh hk hj, coefAt_forwarded_live hd .hl hk hj,
    coefAt_forwarded_live hd .hh hk hj⟩

/-- Settles O32. The four coefficients of a block are those of the two forward stages on the padded image. -/
theorem fwdStoresBlockTransforms : Obligations.FwdStoresBlockTransforms := by
  unfold Obligations.FwdStoresBlockTransforms
  refine fun s => ⟨fun hd => ⟨forwarded s, exec_fwd hd, rfl, fun k j hk hj => ?_, fun b k j hj hout => ?_⟩,
    fun hd => exec_of_badDim hd (by decide)⟩
  · simp only [coefAt_forwarded_live hd _ hk hj]
    exact analyse_coefs (pad s.imgh.toNat s.imgw.toNat (image s)) k j
  · rw [coefAt_forwarded hd b k hj, if_neg hout]

/-! ## What INV stores (R119, R120, R142) -/

/-- R119: the raw block at (k, j) is the block formula on the four coefficients there. -/
theorem blockAt_inv2dRaw (X : Subbands) (k j : Nat) :
    blockAt (inv2dRaw X) k j = blockInverse (X.ll k j) (X.lh k j) (X.hl k j) (X.hh k j) := by
  rw [blockAt, inv2dRaw_ee, inv2dRaw_eo, inv2dRaw_oe, inv2dRaw_oo, blockInverse]

theorem pixAt_reconstructed {s : State} (hd : DimsAccepted s) (r : Nat) {c : Nat} (hc : c < 1024) :
    pixAt (reconstructed s) r c =
      if r < padh s ∧ c < padw s then BitVec.ofInt 8 (clip (inv2dRaw (subbands s) r c)) else pixAt s r c := by
  obtain ⟨-, -, -, -, -, -, -, hw, -⟩ := dims_bounds hd
  rw [reconstructed, pixAt_finish, pixAt_storePix _ _ hw _ _ hc, inv2d]

theorem toNat_pixAt_reconstructed {s : State} (hd : DimsAccepted s) {r c : Nat} (hr : r < padh s) (hc : c < padw s) :
    ((pixAt (reconstructed s) r c).toNat : Int) = clip (inv2dRaw (subbands s) r c) := by
  obtain ⟨-, -, -, -, -, -, -, hw, -⟩ := dims_bounds hd
  rw [pixAt_reconstructed hd r (hc.trans_le hw), if_pos ⟨hr, hc⟩, toNat_ofInt_clip]

/-- R120: CLIPCNT holds the clip count over the padded size. -/
theorem toNat_clipcnt_reconstructed {s : State} (hd : DimsAccepted s) :
    (reconstructed s).clipcnt.toNat = countClipped (padh s) (padw s) (inv2dRaw (subbands s)) :=
  countClipped_word hd _

/-- Settles O33: the stored pixels are the clipped raw blocks, and the clip count fits CLIPCNT. -/
theorem invStoresClippedReconstruction : Obligations.InvStoresClippedReconstruction := by
  unfold Obligations.InvStoresClippedReconstruction
  refine fun s => ⟨fun hd => ⟨reconstructed s, exec_inv hd, rfl, fun k j _ _ R hR => ?_,
    fun r c hr hc => toNat_pixAt_reconstructed hd hr hc, fun r c hc hout => ?_, ?_⟩,
    fun hd => exec_of_badDim hd (by decide)⟩
  · subst hR
    exact blockAt_inv2dRaw (subbands s) k j
  · rw [pixAt_reconstructed hd r hc, if_neg hout]
  · rw [toNat_clipcnt_reconstructed hd, countClipped_eq_card]

/-! ## INV after FWD (R123, R142) -/

/-- FWD leaves the dimensions as they were. -/
theorem dimsAccepted_forwarded {s : State} (hd : DimsAccepted s) : DimsAccepted (forwarded s) := hd

/-- R123: what INV reconstructs from the subbands FWD stored is the padded image. -/
theorem inv2dRaw_subbands_forwarded {s : State} (hd : DimsAccepted s) {r c : Nat} (hr : r < padh s)
    (hc : c < padw s) :
    inv2dRaw (subbands (forwarded s)) r c = pad s.imgh.toNat s.imgw.toNat (image s) r c := by
  obtain ⟨-, -, -, -, -, -, -, -, hh, hw⟩ := dims_bounds hd
  rw [inv2dRaw_congr (sameCoefs_forwarded hd (k := r / 2) (j := c / 2) (by omega) (by omega)), forwardOfImage,
    inv2dRaw_fwd2d]

/-- A pixel is never clipped, nor is the clamped read of one. -/
theorem outOfRange_pad_image (s : State) (h w r c : Nat) : outOfRange (pad h w (image s) r c) = false := by
  have hlt := (pixAt s (min r (h - 1)) (min c (w - 1))).isLt
  rw [inRange_iff, pad, image]
  omega

/-- Settles O42: the raw reconstruction is the padded image, all of whose cells are pixels. -/
theorem invAfterFwdRestoresImage : Obligations.InvAfterFwdRestoresImage := by
  unfold Obligations.InvAfterFwdRestoresImage
  intro s t hd ht
  obtain rfl : forwarded s = t := Host.Outcome.next.inj ((exec_fwd hd).symm.trans ht)
  have hd' := dimsAccepted_forwarded hd
  refine ⟨reconstructed (forwarded s), exec_inv hd', BitVec.eq_of_toNat_eq ?_, rfl, fun r c hr hc => ?_⟩
  · rw [toNat_clipcnt_reconstructed hd']
    refine countClipped_eq_zero.2 fun r c hr hc => ?_
    rw [inv2dRaw_subbands_forwarded hd hr hc, outOfRange_pad_image]
  · refine BitVec.eq_of_toNat_eq (Int.ofNat.inj ?_)
    calc ((pixAt (reconstructed (forwarded s)) r c).toNat : Int)
        = clip (inv2dRaw (subbands (forwarded s)) r c) := toNat_pixAt_reconstructed hd' hr hc
      _ = pad s.imgh.toNat s.imgw.toNat (image s) r c := by
        rw [inv2dRaw_subbands_forwarded hd hr hc, clip_of_inRange (outOfRange_pad_image ..)]

/-! ## The cells a command names (R140) -/

/-- Settles O55: the bounds of the dimensions, multiplied for CAP. -/
theorem acceptedDimensionsFit : Obligations.AcceptedDimensionsFit := by
  unfold Obligations.AcceptedDimensionsFit
  intro s hd
  obtain ⟨hpadh, hpadw, hsubh, hsubw, hposh, hposw, -⟩ := dims_bounds hd
  exact ⟨hpadh, hpadw, hsubh, hsubw, Nat.mul_pos hposh hposw, Nat.mul_le_mul hsubh hsubw⟩

end Sys2Proof.Machine
end

section
/-! SPLICE and UNSPLICE (42_splice_commands.md): what each of them stores, when they fail, and UNSPLICE after SPLICE. -/

namespace Sys2Proof.Machine

/-! ## The completions (R153, R156) -/

/-- The completion of SPLICE when its checks pass. -/
def messageSpliced (s : State) : State :=
  finish none false 0
    { s with ll := memStore s.ll (spliceCells (subw s) (bitstream (message s)) (coefAt s .ll)) }

/-- What the decoder finds in the live region of LL. -/
def decodedLL (s : State) : List Byte × Bool := decodeGroups (llBits (cap s) (subw s) (coefAt s .ll))

theorem exec_splice {s : State} (hd : DimsAccepted s) (hf : MessageFits s) (hz : NoZeroByte s) :
    exec .splice s = .next (messageSpliced s) := execSplice_accepted hd hf hz

theorem exec_unsplice {s : State} (hd : DimsAccepted s) : exec .unsplice s = .next (deliver s (decodedLL s)) :=
  execUnsplice_accepted hd

/-- A SPLICE without an error is one that ran. -/
theorem CommandEffect.splice_of_err_zero {s t : State} (h : CommandEffect .splice s t) (he : t.err = 0) :
    DimsAccepted s ∧ MessageFits s ∧ NoZeroByte s ∧ t = messageSpliced s := by
  cases h with
  | failed e i0 i1 => exact absurd he (errCode_ne_zero e)
  | splice hd hf hz => exact ⟨hd, hf, hz, rfl⟩

/-! ## The failures of a message (R152, R154, R208) -/

theorem payloadFailure_of_oversized {s : State} (hd : DimsAccepted s) (hf : ¬MessageFits s) :
    payloadFailure s = some (fail .capacityExceeded (BitVec.ofNat 32 (bitlen s)) (BitVec.ofNat 32 (cap s)) s) := by
  have hcap : cap s < bitlen s := Nat.lt_of_not_le hf
  rw [payloadFailure, dimOk_iff.2 hd, if_neg (by decide), if_pos hcap]

theorem payloadFailure_of_nul {s : State} {p : Nat} (hd : DimsAccepted s) (hf : MessageFits s)
    (hp : firstNul s = some p) : payloadFailure s = some (fail .nulInPayload (BitVec.ofNat 32 p) 0 s) := by
  have hcap : ¬cap s < bitlen s := Nat.not_lt_of_le hf
  rw [payloadFailure, dimOk_iff.2 hd, if_neg (by decide), if_neg hcap, hp]

/-- R208: the two commands with a message check it before anything else. -/
theorem exec_of_payloadFailure {i : Instr} {s f : State} (hi : i = .splice ∨ i = .embed)
    (h : payloadFailure s = some f) : exec i s = .next f := by
  rcases hi with rfl | rfl
  · simp only [exec, execSplice, h]
  · simp only [exec, execEmbed, h]

/-! ## What SPLICE stores (R153) -/

/-- The coefficient at a position of the bitstream has that bit. It was written, so it is the same in every state with
this LL, whatever free values an unwritten cell has there (U1). -/
theorem coefAt_of_ll_spliced {s u : State} (hd : DimsAccepted s) (hll : u.ll = (messageSpliced s).ll) {i : Nat}
    {b : Bool} (hb : (bitstream (message s))[i]? = some b) :
    coefAt u .ll (i / subw s) (i % subw s) = setlsb (coefAt s .ll (i / subw s) (i % subw s)) b := by
  obtain ⟨-, -, -, -, -, hpos, hw, -⟩ := dims_bounds hd
  obtain ⟨hi, rfl⟩ := List.getElem?_eq_some_iff.1 hb
  have hfind : memFind (bandMem u .ll) (cellKey (i / subw s) (i % subw s)) =
      some (setlsb (coefAt s .ll (i / subw s) (i % subw s)) (bitstream (message s))[i]) := by
    rw [bandMem, hll]
    exact memFind_memStore_of_mem _ (spliceCells_distinct hpos (hw.trans (by decide)) _ _)
      (mem_spliceCells.2 ⟨i, hi, rfl⟩)
  rw [coefAt, hfind, Option.getD_some]

/-- Every other coefficient of LL is as before. -/
theorem coefAt_messageSpliced_of_not_written {s : State} (hd : DimsAccepted s) {k j : Nat} (hj : j < 1024)
    (hout : ¬(j < subw s ∧ k * subw s + j < bitlen s)) : coefAt (messageSpliced s) .ll k j = coefAt s .ll k j := by
  obtain ⟨-, -, -, -, -, hpos, hw, -⟩ := dims_bounds hd
  rw [← length_bitstream_message] at hout
  have hfind : memFind (bandMem (messageSpliced s) .ll) (cellKey k j) = memFind (bandMem s .ll) (cellKey k j) :=
    (memFind_splice s.ll hpos (hw.trans (by decide)) _ _ k hj).trans (dif_neg hout)
  rw [coefAt, hfind]
  rfl

/-- Settles O34: the cells of the bitstream read as stored, and the checks fail in R208's order. -/
theorem spliceReplacesLowBits : Obligations.SpliceReplacesLowBits := by
  unfold Obligations.SpliceReplacesLowBits
  refine fun s => ⟨fun hd hf hz => ⟨messageSpliced s, exec_splice hd hf hz, rfl, fun i b _ hb => ?_,
    fun k j hj hout => ?_⟩, fun hd => ?_, fun hd hf => ?_, fun hd hf p hp hzero hleast => ?_⟩
  · exact coefAt_of_ll_spliced hd rfl hb
  · exact coefAt_messageSpliced_of_not_written hd hj hout
  · exact exec_of_badDim hd (by decide)
  · exact exec_of_payloadFailure (.inl rfl) (payloadFailure_of_oversized hd hf)
  · exact exec_of_payloadFailure (.inl rfl) (payloadFailure_of_nul hd hf (firstNul_some.2 ⟨hp, hzero, hleast⟩))

/-! ## What a decoder delivers (R156, R157) -/

@[simp] theorem deliver_term (s : State) (r : List Byte × Bool) : (deliver s r).term = r.2 := rfl

theorem deliver_err (s : State) (r : List Byte × Bool) :
    (deliver s r).err = if r.1.length = 0 ∨ r.2 = false then 5 else 0 := by
  rw [deliver, finish_err, payloadError, apply_ite resultCode]
  rfl

theorem msgAt_deliver (s : State) (r : List Byte × Bool) (i : Nat) :
    msgAt (deliver s r) i = if h : i < r.1.length then r.1[i] else msgAt s i := by
  rw [deliver, msgAt_finish, msgAt_storeMessage]

theorem toNat_msglen_deliver (s : State) {r : List Byte × Bool} (hr : r.1.length < 2 ^ 24) :
    (deliver s r).msglen.toNat = r.1.length := by
  rw [deliver, finish_msglen, storeMessage_msglen, BitVec.toNat_ofNat, Nat.mod_eq_of_lt hr]

theorem toNat_msglen_eq_zero_iff (s : State) : s.msglen.toNat = 0 ↔ s.msglen = 0 :=
  BitVec.toNat_inj (y := 0#24)

/-- A message decoded from the live region of LL fits MSGLEN. -/
theorem length_decodeGroups_llBits_lt {s : State} (hd : DimsAccepted s) (w : Nat) (A : Mat) :
    (decodeGroups (llBits (cap s) w A)).1.length < 2 ^ 24 := by
  have hlen := length_decodeGroups_le (llBits (cap s) w A)
  rw [length_llBits] at hlen
  have hcap := cap_le hd
  omega

/-- Settles O35: what the decoder finds in CAP bits fits MSGLEN, and is delivered cell by cell. -/
theorem unspliceDecodesLowBits : Obligations.UnspliceDecodesLowBits := by
  unfold Obligations.UnspliceDecodesLowBits
  refine fun s => ⟨fun hd => ⟨deliver s (decodedLL s), (decodedLL s).1, (decodedLL s).2, exec_unsplice hd, rfl, rfl,
    toNat_msglen_deliver s (length_decodeGroups_llBits_lt hd _ _), fun i hi => ?_, fun i hi => ?_, deliver_err s _⟩,
    fun hd => exec_of_badDim hd (by decide)⟩
  · rw [msgAt_deliver, dif_pos hi]
  · rw [msgAt_deliver, dif_neg (Nat.not_lt_of_le hi)]

/-! ## When no payload is found (R157, R207) -/

/-- Both decoding commands deliver what the decoder finds in CAP bits. -/
theorem exists_deliver_of_decoding {i : Instr} {s t : State} (hi : i = .unsplice ∨ i = .extract)
    (hd : DimsAccepted s) (h : exec i s = .next t) :
    ∃ u A, t = deliver u (decodeGroups (llBits (cap s) (subw s) A)) := by
  rcases hi with rfl | rfl
  · exact ⟨_, _, Host.Outcome.next.inj (h.symm.trans (execUnsplice_accepted hd))⟩
  · exact ⟨_, _, Host.Outcome.next.inj (h.symm.trans (execExtract_accepted hd))⟩

theorem deliver_err_eq_five_iff (s : State) (r : List Byte × Bool) :
    (deliver s r).err = 5 ↔ r.1.length = 0 ∨ r.2 = false := by
  rw [deliver_err]
  exact Ne.ite_eq_left_iff (by decide)

theorem deliver_err_eq_zero_iff (s : State) (r : List Byte × Bool) :
    (deliver s r).err = 0 ↔ r.2 = true ∧ 1 ≤ r.1.length := by
  rw [deliver_err, Ne.ite_eq_right_iff (by decide), not_or, Bool.not_eq_false, and_comm, Nat.one_le_iff_ne_zero]

/-- Settles O52: the two commands end in the same delivery, whose code follows from the length and the flag. -/
theorem noPayloadFoundCondition : Obligations.NoPayloadFoundCondition := by
  unfold Obligations.NoPayloadFoundCondition
  intro i s t hi hd h
  obtain ⟨u, A, rfl⟩ := exists_deliver_of_decoding hi hd h
  have hlen := toNat_msglen_deliver u (length_decodeGroups_llBits_lt hd (subw s) A)
  rw [← toNat_msglen_eq_zero_iff, hlen, deliver_term]
  exact ⟨deliver_err_eq_zero_iff u _, deliver_err_eq_five_iff u _⟩

/-! ## UNSPLICE after SPLICE (R133, R158) -/

/-- The least-significant bits of a matrix whose first cells hold a bit sequence begin with that sequence. -/
theorem llBits_eq_append {n w : Nat} {A : Mat} {bits : List Bool} (hn : bits.length ≤ n)
    (h : ∀ i b, bits[i]? = some b → lsb (A (i / w) (i % w)) = b) : ∃ τ, llBits n w A = bits ++ τ := by
  have htake : (llBits n w A).take bits.length = bits :=
    List.ext_getElem (by rw [List.length_take, length_llBits, Nat.min_eq_left hn]) fun i _ hi => by
      rw [List.getElem_take, getElem_llBits, h i bits[i] (List.getElem?_eq_getElem hi)]
  exact ⟨(llBits n w A).drop bits.length, by
    calc llBits n w A = (llBits n w A).take bits.length ++ (llBits n w A).drop bits.length :=
          (List.take_append_drop _ _).symm
      _ = bits ++ (llBits n w A).drop bits.length := by rw [htake]⟩

theorem message_ne_zero {s : State} (hz : NoZeroByte s) : ∀ v ∈ message s, v ≠ 0 := by
  intro v hv
  obtain ⟨i, hi, rfl⟩ := List.mem_map.1 hv
  exact hz i (List.mem_range.1 hi)

/-- R158: from LL as SPLICE left it the decoder gets the message back, in any state with the same live region. -/
theorem decodedLL_of_ll_spliced {s u : State} (hd : DimsAccepted s) (hf : MessageFits s) (hz : NoZeroByte s)
    (hh : u.imgh = s.imgh) (hw : u.imgw = s.imgw) (hll : u.ll = (messageSpliced s).ll) :
    decodedLL u = (message s, true) := by
  have hsubw : subw u = subw s := by rw [subw, padw, hw]; rfl
  have hcap : cap u = cap s := by rw [cap, hsubw, subh, padh, hh]; rfl
  have hfit : (bitstream (message s)).length ≤ cap s := by rwa [length_bitstream_message]
  obtain ⟨τ, hbits⟩ := llBits_eq_append (w := subw s) (A := coefAt u .ll) hfit fun i b hb => by
    rw [coefAt_of_ll_spliced hd hll hb, lsb_setlsb]
  rw [decodedLL, hcap, hsubw, hbits]
  exact bitstreamRoundTrip.1 _ τ (message_ne_zero hz)

/-- Settles O43: the SPLICE ran, so the decoder finds its message in LL, and the UNSPLICE delivers that. -/
theorem spliceThenUnsplice : Obligations.SpliceThenUnsplice := by
  unfold Obligations.SpliceThenUnsplice
  intro s t u h he hcfg hh hw hll
  obtain ⟨hd, hf, hz, rfl⟩ := (exec_effect h).splice_of_err_zero he
  have hdu : DimsAccepted u := by
    rw [DimsAccepted, hcfg, hh, hw]
    exact hd
  have hdec : decodedLL u = (message s, true) := decodedLL_of_ll_spliced hd hf hz hh hw hll
  have hlen : (message s).length = s.msglen.toNat := length_message s
  refine ⟨deliver u (message s, true), hdec ▸ exec_unsplice hdu, BitVec.eq_of_toNat_eq ?_, fun i hi => ?_, rfl, ?_⟩
  · rw [toNat_msglen_deliver u (hlen ▸ s.msglen.isLt), hlen]
  · rw [msgAt_deliver, dif_pos (hlen ▸ hi), getElem_message]
  · simp [deliver_err, toNat_msglen_eq_zero_iff]

end Sys2Proof.Machine
end

section
/-! NOP and the composite commands EMBED and EXTRACT (43_composite_commands.md): what each of them stores, their
composition from the elementary commands, and EXTRACT after EMBED. -/

namespace Sys2Proof.Machine

/-! ## The completions (R161 to R163) -/

/-- Settles O31: NOP makes no check. -/
theorem nopRewritesResultGroup : Obligations.NopRewritesResultGroup := by
  unfold Obligations.NopRewritesResultGroup
  exact fun s => rfl

/-- The completion of EMBED when its checks pass. -/
def embedded (s : State) : State :=
  finish none false (inv2d (subh s) (subw s) (embedSubbands s)).2
    (storePix (storeSubbands s (subh s) (subw s) (embedSubbands s)) (padh s) (padw s)
      (inv2d (subh s) (subw s) (embedSubbands s)).1)

/-- What the decoder finds in LL of the image's forward transform. -/
def decodedImage (s : State) : List Byte × Bool :=
  decodeGroups (llBits (cap s) (subw s) (forwardOfImage s).ll)

/-- The completion of EXTRACT with accepted dimensions. -/
def extracted (s : State) : State :=
  deliver (storeSubbands s (subh s) (subw s) (forwardOfImage s)) (decodedImage s)

theorem exec_embed {s : State} (hd : DimsAccepted s) (hf : MessageFits s) (hz : NoZeroByte s) :
    exec .embed s = .next (embedded s) := execEmbed_accepted hd hf hz

theorem exec_extract {s : State} (hd : DimsAccepted s) : exec .extract s = .next (extracted s) :=
  execExtract_accepted hd

/-- An EMBED without an error passed its three checks and ran. -/
theorem CommandEffect.embedded_of_err_zero {s t : State} (h : CommandEffect .embed s t) (he : t.err = 0) :
    DimsAccepted s ∧ MessageFits s ∧ NoZeroByte s ∧ t = embedded s := by
  cases h with
  | failed e i0 i1 => exact absurd he (errCode_ne_zero e)
  | embed hd hf hz => exact ⟨hd, hf, hz, rfl⟩

/-! ## Subbands stored over the live region -/

theorem coefAt_stored_live {s : State} (hd : DimsAccepted s) (X : Subbands) (b : Band) {k j : Nat} (hk : k < subh s)
    (hj : j < subw s) : coefAt (storeSubbands s (subh s) (subw s) X) b k j = bandOf X b k j := by
  obtain ⟨-, -, -, -, -, -, hw, -⟩ := dims_bounds hd
  rw [coefAt_storeSubbands _ _ (by omega) _ _ _ (by omega), if_pos ⟨hk, hj⟩]

theorem coefAt_stored_outside {s : State} (hd : DimsAccepted s) (X : Subbands) (b : Band) {k j : Nat} (hj : j < 1024)
    (hout : ¬(k < subh s ∧ j < subw s)) : coefAt (storeSubbands s (subh s) (subw s) X) b k j = coefAt s b k j := by
  obtain ⟨-, -, -, -, -, -, hw, -⟩ := dims_bounds hd
  rw [coefAt_storeSubbands _ _ (by omega) _ _ _ hj, if_neg hout]

/-- The operands INV reads after the store are the stored quadruple, as far as they are live. -/
theorem sameCoefs_stored {s : State} (hd : DimsAccepted s) (X : Subbands) {k j : Nat} (hk : k < subh s)
    (hj : j < subw s) : SameCoefs (subbands (storeSubbands s (subh s) (subw s) X)) X k j :=
  ⟨coefAt_stored_live hd X .ll hk hj, coefAt_stored_live hd X .lh hk hj, coefAt_stored_live hd X .hl hk hj,
    coefAt_stored_live hd X .hh hk hj⟩

/-! ## What EMBED stores (R162) -/

theorem coefAt_embedded_live {s : State} (hd : DimsAccepted s) (b : Band) {k j : Nat} (hk : k < subh s)
    (hj : j < subw s) : coefAt (embedded s) b k j = bandOf (embedSubbands s) b k j := by
  rw [embedded, coefAt_finish, coefAt_storePix, coefAt_stored_live hd _ b hk hj]

theorem coefAt_embedded_outside {s : State} (hd : DimsAccepted s) (b : Band) {k j : Nat} (hj : j < 1024)
    (hout : ¬(k < subh s ∧ j < subw s)) : coefAt (embedded s) b k j = coefAt s b k j := by
  rw [embedded, coefAt_finish, coefAt_storePix, coefAt_stored_outside hd _ b hj hout]

/-- A pixel of the padded size was written, so it is the same in every state with this PIX, whatever free values an
unwritten cell has there (U1). -/
theorem pixAt_of_pix_embedded {s u : State} (hd : DimsAccepted s) (hpix : u.pix = (embedded s).pix) {r c : Nat}
    (hr : r < padh s) (hc : c < padw s) :
    pixAt u r c = BitVec.ofInt 8 (clip (inv2dRaw (embedSubbands s) r c)) := by
  obtain ⟨-, -, -, -, -, -, -, hw, -⟩ := dims_bounds hd
  have hfind : memFind u.pix (cellKey r c) = some (BitVec.ofInt 8 (clip (inv2dRaw (embedSubbands s) r c))) := by
    rw [hpix]
    exact (memFind_store_region s.pix hw _ r c (by omega)).trans (if_pos ⟨hr, hc⟩)
  rw [pixAt, hfind, Option.getD_some]

theorem toNat_pixAt_of_pix_embedded {s u : State} (hd : DimsAccepted s) (hpix : u.pix = (embedded s).pix) {r c : Nat}
    (hr : r < padh s) (hc : c < padw s) :
    ((pixAt u r c).toNat : Int) = clip (inv2dRaw (embedSubbands s) r c) := by
  rw [pixAt_of_pix_embedded hd hpix hr hc, toNat_ofInt_clip]

theorem pixAt_embedded_outside {s : State} (hd : DimsAccepted s) {r c : Nat} (hc : c < 1024)
    (hout : ¬(r < padh s ∧ c < padw s)) : pixAt (embedded s) r c = pixAt s r c := by
  obtain ⟨-, -, -, -, -, -, -, hw, -⟩ := dims_bounds hd
  rw [embedded, pixAt_finish, pixAt_storePix _ _ hw _ _ hc, if_neg hout, pixAt_storeSubbands]

/-- R120: CLIPCNT holds the clip count over the padded size. -/
theorem toNat_clipcnt_embedded {s : State} (hd : DimsAccepted s) :
    (embedded s).clipcnt.toNat = countClipped (padh s) (padw s) (inv2dRaw (embedSubbands s)) :=
  countClipped_word hd _

/-- Settles O36: the quadruple is `embedSubbands`, and the checks fail in R208's order. -/
theorem embedStoresStegoImage : Obligations.EmbedStoresStegoImage := by
  unfold Obligations.EmbedStoresStegoImage
  refine fun s => ⟨fun hd hf hz => ⟨embedded s, embedSubbands s, exec_embed hd hf hz, rfl, rfl, rfl,
    fun _ _ _ _ => rfl, rfl, fun k j hk hj => ?_, fun b k j hj hout => coefAt_embedded_outside hd b hj hout,
    fun r c hr hc => toNat_pixAt_of_pix_embedded hd rfl hr hc, fun r c hc hout => pixAt_embedded_outside hd hc hout, ?_⟩,
    fun hd => ?_, fun hd hf => ?_, fun hd hf p hp hzero hleast => ?_⟩
  · exact ⟨coefAt_embedded_live hd .ll hk hj, coefAt_embedded_live hd .lh hk hj, coefAt_embedded_live hd .hl hk hj,
      coefAt_embedded_live hd .hh hk hj⟩
  · rw [toNat_clipcnt_embedded hd, countClipped_eq_card]
  · exact exec_of_badDim hd (by decide)
  · exact exec_of_payloadFailure (.inr rfl) (payloadFailure_of_oversized hd hf)
  · exact exec_of_payloadFailure (.inr rfl) (payloadFailure_of_nul hd hf (firstNul_some.2 ⟨hp, hzero, hleast⟩))

/-! ## The shift of a block (R128, R162) -/

theorem embedSubbands_ll_of_bit {s : State} {k j : Nat} {b : Bool}
    (hb : (bitstream (message s))[k * subw s + j]? = some b) :
    (embedSubbands s).ll k j = setlsb ((forwardOfImage s).ll k j) b := by
  obtain ⟨hlt, rfl⟩ := List.getElem?_eq_some_iff.1 hb
  exact spliced_of_lt hlt

theorem embedSubbands_ll_beyond {s : State} {k j : Nat} (h : bitlen s ≤ k * subw s + j) :
    (embedSubbands s).ll k j = (forwardOfImage s).ll k j := by
  rw [← length_bitstream_message] at h
  exact spliced_of_le h

/-- The change EMBED makes to an LL coefficient of the image. -/
def embedShift (s : State) (k j : Nat) : Int := (embedSubbands s).ll k j - (forwardOfImage s).ll k j

theorem embedShift_of_bit {s : State} {k j : Nat} {b : Bool}
    (hb : (bitstream (message s))[k * subw s + j]? = some b) :
    embedShift s k j = setlsb ((forwardOfImage s).ll k j) b - (forwardOfImage s).ll k j := by
  rw [embedShift, embedSubbands_ll_of_bit hb]

theorem embedShift_beyond {s : State} {k j : Nat} (h : bitlen s ≤ k * subw s + j) : embedShift s k j = 0 := by
  rw [embedShift, embedSubbands_ll_beyond h, sub_self]

theorem embedShift_unit (s : State) (k j : Nat) :
    embedShift s k j = -1 ∨ embedShift s k j = 0 ∨ embedShift s k j = 1 := by
  cases hb : (bitstream (message s))[k * subw s + j]? with
  | some b =>
    obtain ⟨-, -, hstep⟩ := setlsb_moves ((forwardOfImage s).ll k j) b
    rwa [embedShift_of_bit hb]
  | none =>
    rw [List.getElem?_eq_none_iff, length_bitstream_message] at hb
    exact .inr (.inl (embedShift_beyond hb))

/-- R128: LL is a summand of every raw cell of its block, and the other summand reconstructs the padded image. -/
theorem inv2dRaw_embedSubbands (s : State) (r c : Nat) : inv2dRaw (embedSubbands s) r c =
    pad s.imgh.toNat s.imgw.toNat (image s) r c + embedShift s (r / 2) (c / 2) := by
  have himage : pad s.imgh.toNat s.imgw.toNat (image s) r c = (forwardOfImage s).ll (r / 2) (c / 2) +
      inv2dRaw { forwardOfImage s with ll := fun _ _ => 0 } r c := by
    rw [← inv2dRaw_eq_ll_add, forwardOfImage, inv2dRaw_fwd2d]
  have hstego : inv2dRaw (embedSubbands s) r c = (embedSubbands s).ll (r / 2) (c / 2) +
      inv2dRaw { forwardOfImage s with ll := fun _ _ => 0 } r c := inv2dRaw_eq_ll_add _ r c
  rw [hstego, himage, embedShift]
  ring

/-- Settles O37. -/
theorem embedShiftsEachBlock : Obligations.EmbedShiftsEachBlock := by
  unfold Obligations.EmbedShiftsEachBlock
  intro s t h he
  obtain ⟨hd, -, -, rfl⟩ := (exec_effect h).embedded_of_err_zero he
  refine ⟨embedShift s, fun k j => ⟨embedShift_unit s k j, embedShift_beyond, fun b => embedShift_of_bit⟩,
    fun r c hr hc => ?_⟩
  rw [toNat_pixAt_of_pix_embedded hd rfl hr hc, inv2dRaw_embedSubbands, pad, image]

/-! ## What EXTRACT delivers (R163) -/

theorem coefAt_extracted_live {s : State} (hd : DimsAccepted s) (b : Band) {k j : Nat} (hk : k < subh s)
    (hj : j < subw s) : coefAt (extracted s) b k j = bandOf (forwardOfImage s) b k j := by
  rw [extracted, deliver, coefAt_finish, coefAt_storeMessage, coefAt_stored_live hd _ b hk hj]

theorem coefAt_extracted_outside {s : State} (hd : DimsAccepted s) (b : Band) {k j : Nat} (hj : j < 1024)
    (hout : ¬(k < subh s ∧ j < subw s)) : coefAt (extracted s) b k j = coefAt s b k j := by
  rw [extracted, deliver, coefAt_finish, coefAt_storeMessage, coefAt_stored_outside hd _ b hj hout]

theorem msgAt_extracted (s : State) (i : Nat) : msgAt (extracted s) i =
    if h : i < (decodedImage s).1.length then (decodedImage s).1[i] else msgAt s i := by
  rw [extracted, msgAt_deliver, msgAt_storeSubbands]

theorem toNat_msglen_extracted {s : State} (hd : DimsAccepted s) :
    (extracted s).msglen.toNat = (decodedImage s).1.length :=
  toNat_msglen_deliver _ (length_decodeGroups_llBits_lt hd _ _)

/-- Settles O39: what the decoder finds in CAP bits fits MSGLEN, and is delivered cell by cell. -/
theorem extractDecodesImage : Obligations.ExtractDecodesImage := by
  unfold Obligations.ExtractDecodesImage
  refine fun s => ⟨fun hd => ⟨extracted s, forwardOfImage s, (decodedImage s).1, (decodedImage s).2, exec_extract hd,
    rfl, rfl, rfl, fun k j hk hj => ?_, fun b k j hj hout => coefAt_extracted_outside hd b hj hout,
    toNat_msglen_extracted hd, fun i hi => ?_, fun i hi => ?_, deliver_err _ _⟩,
    fun hd => exec_of_badDim hd (by decide)⟩
  · exact ⟨coefAt_extracted_live hd .ll hk hj, coefAt_extracted_live hd .lh hk hj, coefAt_extracted_live hd .hl hk hj,
      coefAt_extracted_live hd .hh hk hj⟩
  · rw [msgAt_extracted, dif_pos hi]
  · rw [msgAt_extracted, dif_neg (Nat.not_lt_of_le hi)]

/-! ## EXTRACT as FWD and UNSPLICE (R141, R156, R163) -/

theorem decodedLL_forwarded {s : State} (hd : DimsAccepted s) : decodedLL (forwarded s) = decodedImage s := by
  obtain ⟨-, -, -, -, -, hpos, -⟩ := dims_bounds hd
  have hbits : llBits (cap s) (subw s) (coefAt (forwarded s) .ll) =
      llBits (cap s) (subw s) (forwardOfImage s).ll := llBits_congr fun i hi =>
    coefAt_forwarded_live hd .ll (Nat.div_lt_of_lt_mul (Nat.mul_comm (subh s) (subw s) ▸ hi)) (Nat.mod_lt i hpos)
  exact congrArg decodeGroups hbits

/-- A delivery writes the result group anew, so that of FWD is lost. -/
theorem deliver_forwarded (s : State) (r : List Byte × Bool) : deliver (forwarded s) r =
    deliver (storeSubbands s (subh s) (subw s) (forwardOfImage s)) r := rfl

/-- Settles O41: FWD leaves in LL what EXTRACT decodes, and with BadDim each of the three only fails. -/
theorem extractIsFwdUnsplice : Obligations.ExtractIsFwdUnsplice := by
  unfold Obligations.ExtractIsFwdUnsplice
  intro s t h
  by_cases hd : DimsAccepted s
  · obtain rfl : extracted s = t := Host.Outcome.next.inj ((exec_extract hd).symm.trans h)
    refine ⟨forwarded s, exec_fwd hd, ?_⟩
    rw [exec_unsplice (dimsAccepted_forwarded hd), decodedLL_forwarded hd, deliver_forwarded, extracted]
  · obtain rfl : failBadDim s = t := Host.Outcome.next.inj ((exec_of_badDim hd (by decide)).symm.trans h)
    exact ⟨failBadDim s, exec_of_badDim hd (by decide), exec_of_badDim (s := failBadDim s) hd (by decide)⟩

/-! ## EMBED as FWD, SPLICE and INV (R164) -/

/-- A splice after a store of the whole region stores the spliced matrix: both memories are in canonical form, and
every cell of one reads as in the other. -/
theorem memStore_splice_region {m : Memory Int} (hm : m.wf) {h w : Nat} (hpos : 0 < w) (hw : w ≤ 1024)
    {bits : List Bool} (hfit : bits.length ≤ h * w) {A F : Mat} (hA : ∀ k j, k < h → j < w → A k j = F k j) :
    memStore (memStore m (regionCells h w F)) (spliceCells w bits A) =
      memStore m (regionCells h w (spliced w bits F)) := by
  refine memory_ext (wf_memStore _ (wf_memStore _ hm)) (wf_memStore _ hm) fun a => ?_
  obtain ⟨k, j, hj, rfl⟩ : ∃ k j, j < 1024 ∧ a = cellKey k j :=
    ⟨a / 1024, a % 1024, Nat.mod_lt a (by decide), (Nat.div_add_mod a 1024).symm⟩
  rw [memFind_splice _ hpos hw _ _ _ hj, memFind_store_region _ hw _ _ _ hj, memFind_store_region _ hw _ _ _ hj]
  by_cases hbit : j < w ∧ k * w + j < bits.length
  · have hk : k < h := Nat.lt_of_mul_lt_mul_right (a := w) (by omega)
    rw [dif_pos hbit, if_pos ⟨hk, hbit.1⟩, spliced_of_lt hbit.2, hA k j hk hbit.1]
  · rw [dif_neg hbit]
    refine if_ctx_congr Iff.rfl (fun hin => ?_) fun _ => rfl
    rw [spliced_of_le (Nat.le_of_not_lt fun hlt => hbit ⟨hin.2, hlt⟩)]

/-- After FWD the checks of SPLICE find what they found before. -/
theorem exec_splice_forwarded {s : State} (hd : DimsAccepted s) (hf : MessageFits s) (hz : NoZeroByte s) :
    exec .splice (forwarded s) = .next (messageSpliced (forwarded s)) :=
  exec_splice (dimsAccepted_forwarded hd) hf hz

/-- FWD and SPLICE leave the quadruple EMBED stores. -/
theorem messageSpliced_forwarded {s : State} (hd : DimsAccepted s) (hf : MessageFits s) (hwf : s.ll.wf) :
    messageSpliced (forwarded s) = finish none false 0 (storeSubbands s (subh s) (subw s) (embedSubbands s)) := by
  obtain ⟨-, -, -, -, -, hpos, hw, -⟩ := dims_bounds hd
  have hfit : (bitstream (message s)).length ≤ subh s * subw s := by rwa [length_bitstream_message]
  have hll : (messageSpliced (forwarded s)).ll =
      memStore s.ll (regionCells (subh s) (subw s) (embedSubbands s).ll) :=
    memStore_splice_region hwf hpos (hw.trans (by decide)) hfit fun k j hk hj => coefAt_forwarded_live hd .ll hk hj
  calc messageSpliced (forwarded s)
      = finish none false 0 { storeSubbands s (subh s) (subw s) (forwardOfImage s) with
          ll := (messageSpliced (forwarded s)).ll } := rfl
    _ = finish none false 0 (storeSubbands s (subh s) (subw s) (embedSubbands s)) := by rw [hll]; rfl

/-- INV reads no field of the result group. -/
theorem reconstructed_finish (e : Option CmdError) (f : Bool) (n : Nat) (s : State) :
    reconstructed (finish e f n s) = reconstructed s := rfl

/-- INV after a store of the live region writes the reconstruction of the stored quadruple. -/
theorem reconstructed_storeSubbands {s : State} (hd : DimsAccepted s) (X : Subbands) :
    reconstructed (storeSubbands s (subh s) (subw s) X) = finish none false (inv2d (subh s) (subw s) X).2
      (storePix (storeSubbands s (subh s) (subw s) X) (padh s) (padw s) (inv2d (subh s) (subw s) X).1) := by
  obtain ⟨-, -, -, -, -, -, -, -, hh, hw⟩ := dims_bounds hd
  have hraw : ∀ r c, r < 2 * subh s → c < 2 * subw s →
      inv2dRaw (subbands (storeSubbands s (subh s) (subw s) X)) r c = inv2dRaw X r c := fun r c hr hc =>
    inv2dRaw_congr (sameCoefs_stored hd X (by omega) (by omega))
  have hcount : (inv2d (subh s) (subw s) (subbands (storeSubbands s (subh s) (subw s) X))).2 =
      (inv2d (subh s) (subw s) X).2 := countClipped_congr hraw
  have hpix : storePix (storeSubbands s (subh s) (subw s) X) (padh s) (padw s)
        (inv2d (subh s) (subw s) (subbands (storeSubbands s (subh s) (subw s) X))).1 =
      storePix (storeSubbands s (subh s) (subw s) X) (padh s) (padw s) (inv2d (subh s) (subw s) X).1 :=
    storePix_congr _ fun r c hr hc => congrArg clip (hraw r c (hh ▸ hr) (hw ▸ hc))
  rw [← hpix, ← hcount]
  rfl

/-- INV after FWD and SPLICE completes as EMBED does. -/
theorem reconstructed_messageSpliced_forwarded {s : State} (hd : DimsAccepted s) (hf : MessageFits s)
    (hwf : s.ll.wf) : reconstructed (messageSpliced (forwarded s)) = embedded s := by
  rw [messageSpliced_forwarded hd hf hwf, reconstructed_finish, reconstructed_storeSubbands hd, embedded]

/-- An EMBED that fails does so in the check it shares with SPLICE. -/
theorem exec_splice_of_embed_failed {s t : State} (h : exec .embed s = .next t) (he : t.err ≠ 0) :
    exec .splice s = .next t := by
  cases hp : payloadFailure s with
  | some f => rw [exec_of_payloadFailure (.inl rfl) hp, ← exec_of_payloadFailure (.inr rfl) hp, h]
  | none =>
    obtain ⟨hd, hf, hz⟩ := payloadFailure_none.1 hp
    obtain rfl : embedded s = t := Host.Outcome.next.inj ((exec_embed hd hf hz).symm.trans h)
    exact absurd rfl he

/-- Settles O40. -/
theorem embedIsFwdSpliceInv : Obligations.EmbedIsFwdSpliceInv := by
  unfold Obligations.EmbedIsFwdSpliceInv
  refine fun s t hwf h => ⟨fun he => ?_, exec_splice_of_embed_failed h⟩
  obtain ⟨hd, hf, hz, rfl⟩ := (exec_effect h).embedded_of_err_zero he
  refine ⟨forwarded s, messageSpliced (forwarded s), exec_fwd hd, exec_splice_forwarded hd hf hz, ?_, rfl, rfl⟩
  rw [← reconstructed_messageSpliced_forwarded hd hf hwf]
  exact exec_inv hd

/-! ## EXTRACT and the image (R113, R163) -/

/-- The padding reads no cell outside the matrix. -/
theorem pad_congr {h w : Nat} (hh : 1 ≤ h) (hw : 1 ≤ w) {P Q : Mat}
    (he : ∀ r c, r < h → c < w → P r c = Q r c) : pad h w P = pad h w Q := by
  funext r c
  exact he _ _ (by omega) (by omega)

theorem forwardOfImage_congr {s u : State} (hd : DimsAccepted s) (hh : s.imgh = u.imgh) (hw : s.imgw = u.imgw)
    (hpix : ∀ r c, r < s.imgh.toNat → c < s.imgw.toNat → pixAt s r c = pixAt u r c) :
    forwardOfImage s = forwardOfImage u := by
  obtain ⟨hposh, -, hposw, -⟩ := hd
  have hpad : pad s.imgh.toNat s.imgw.toNat (image s) = pad s.imgh.toNat s.imgw.toNat (image u) :=
    pad_congr hposh hposw fun r c hr hc => by rw [image, image, hpix r c hr hc]
  rw [forwardOfImage, forwardOfImage, fwd2d_eq_analyse, fwd2d_eq_analyse, hpad, hh, hw]

/-- Settles O45: all that is delivered is the image's transform or decoded from it. -/
theorem extractReadsOnlyTheImage : Obligations.ExtractReadsOnlyTheImage := by
  unfold Obligations.ExtractReadsOnlyTheImage
  intro s1 s2 t1 t2 hcfg hh hw hpix hd h1 h2
  have hd2 : DimsAccepted s2 := by
    rw [DimsAccepted, ← hcfg, ← hh, ← hw]
    exact hd
  obtain rfl : extracted s1 = t1 := Host.Outcome.next.inj ((exec_extract hd).symm.trans h1)
  obtain rfl : extracted s2 = t2 := Host.Outcome.next.inj ((exec_extract hd2).symm.trans h2)
  have hfwd : forwardOfImage s1 = forwardOfImage s2 := forwardOfImage_congr hd hh hw hpix
  have hsubh : subh s1 = subh s2 := by rw [subh, padh, hh]; rfl
  have hsubw : subw s1 = subw s2 := by rw [subw, padw, hw]; rfl
  have hdec : decodedImage s1 = decodedImage s2 := by rw [decodedImage, cap, hsubh, hsubw, hfwd]; rfl
  have hlen : (extracted s1).msglen.toNat = (extracted s2).msglen.toNat := by
    rw [toNat_msglen_extracted hd, toNat_msglen_extracted hd2, hdec]
  refine ⟨BitVec.eq_of_toNat_eq hlen, fun i hi => ?_, congrArg Prod.snd hdec, ?_, fun b k j hk hj => ?_⟩
  · have hi2 : i < (decodedImage s2).1.length := by rwa [hlen, toNat_msglen_extracted hd2] at hi
    simp only [msgAt_extracted, hdec, dif_pos hi2]
  · rw [extracted, extracted, deliver_err, deliver_err, hdec]
  · rw [coefAt_extracted_live hd b hk hj, coefAt_extracted_live hd2 b (hsubh ▸ hk) (hsubw ▸ hj), hfwd]

/-! ## EXTRACT after EMBED (R124, R126, R133, R167) -/

/-- R167: the dimensions of `u` are those of `s`, or its padded size. -/
def SameOrPadded (s u : State) : Prop :=
  (u.imgh.toNat = s.imgh.toNat ∧ u.imgw.toNat = s.imgw.toNat) ∨ (u.imgh.toNat = padh s ∧ u.imgw.toNat = padw s)

section
variable {s u : State} (hsize : SameOrPadded s u)
include hsize

theorem SameOrPadded.padh_eq : padh u = padh s := by
  rw [padh, padh]
  rcases hsize with ⟨h, -⟩ | ⟨h, -⟩
  · rw [h]
  · rw [h, padh]
    omega

theorem SameOrPadded.padw_eq : padw u = padw s := by
  rw [padw, padw]
  rcases hsize with ⟨-, h⟩ | ⟨-, h⟩
  · rw [h]
  · rw [h, padw]
    omega

theorem SameOrPadded.imgh_le : u.imgh.toNat ≤ padh s := hsize.padh_eq ▸ Nat.le_add_right _ _

theorem SameOrPadded.imgw_le : u.imgw.toNat ≤ padw s := hsize.padw_eq ▸ Nat.le_add_right _ _

/-- R140: MAXH and MAXW are even, so the padded size is accepted too. -/
theorem SameOrPadded.dimsAccepted (hcfg : u.cfg = s.cfg) (hd : DimsAccepted s) : DimsAccepted u := by
  obtain ⟨hmaxh, hmaxw, -, -, hsubh, hsubw, -, -, hh, hw⟩ := dims_bounds hd
  have hpadh : u.imgh.toNat + u.imgh.toNat % 2 = padh s := hsize.padh_eq
  have hpadw : u.imgw.toNat + u.imgw.toNat % 2 = padw s := hsize.padw_eq
  rw [DimsAccepted, hcfg]
  omega

/-- R126: the raw stego image holds its own padding, so both sizes pad it to itself. -/
theorem SameOrPadded.pad_stego {r c : Nat} (hr : r < padh s) (hc : c < padw s) :
    pad u.imgh.toNat u.imgw.toNat (inv2dRaw (embedSubbands s)) r c = inv2dRaw (embedSubbands s) r c := by
  have hpadded : pad (padh s) (padw s) (inv2dRaw (embedSubbands s)) r c = inv2dRaw (embedSubbands s) r c :=
    pad_of_lt _ hr hc
  rcases hsize with ⟨hh, hw⟩ | ⟨hh, hw⟩
  · rw [hh, hw, ← pad_of_replicated (fun hodd q => ?_) (fun hodd q => ?_) hr hc]
    · exact hpadded
    · obtain ⟨k, hk⟩ : ∃ k, s.imgh.toNat = 2 * k + 1 := ⟨s.imgh.toNat / 2, by omega⟩
      rw [hk]
      exact inv2dRaw_equal_rows (X := embedSubbands s) (fwd2d_last_row s.imgw.toNat (image s) hk) q
    · obtain ⟨j, hj⟩ : ∃ j, s.imgw.toNat = 2 * j + 1 := ⟨s.imgw.toNat / 2, by omega⟩
      rw [hj]
      exact inv2dRaw_equal_cols (X := embedSubbands s) (fwd2d_last_col s.imgh.toNat (image s) hj) q
  · rw [hh, hw, hpadded]

end

/-- Where nothing was clipped, the stego image is the raw reconstruction. -/
theorem image_of_pix_embedded {s u : State} (hd : DimsAccepted s) (hclip : (embedded s).clipcnt = 0)
    (hpix : u.pix = (embedded s).pix) {r c : Nat} (hr : r < padh s) (hc : c < padw s) :
    image u r c = inv2dRaw (embedSubbands s) r c := by
  have hzero : countClipped (padh s) (padw s) (inv2dRaw (embedSubbands s)) = 0 := by
    rw [← toNat_clipcnt_embedded hd, hclip]
    rfl
  rw [image, toNat_pixAt_of_pix_embedded hd hpix hr hc, clip_of_inRange (countClipped_eq_zero.1 hzero r c hr hc)]

/-- R124: the transform of an unclipped stego image is the quadruple EMBED stored. -/
theorem sameCoefs_forwardOfImage_embedded {s u : State} (hd : DimsAccepted s) (hdu : DimsAccepted u)
    (hsize : SameOrPadded s u) (hclip : (embedded s).clipcnt = 0) (hpix : u.pix = (embedded s).pix) {k j : Nat}
    (hk : k < subh s) (hj : j < subw s) : SameCoefs (forwardOfImage u) (embedSubbands s) k j := by
  obtain ⟨-, -, -, -, -, -, -, -, hh, hw⟩ := dims_bounds hd
  obtain ⟨hposh, -, hposw, -⟩ := hdu
  have hpad : pad u.imgh.toNat u.imgw.toNat (image u) =
      pad u.imgh.toNat u.imgw.toNat (inv2dRaw (embedSubbands s)) := pad_congr hposh hposw fun r c hr hc =>
    image_of_pix_embedded hd hclip hpix (hr.trans_le hsize.imgh_le) (hc.trans_le hsize.imgw_le)
  have hblock : blockAt (pad u.imgh.toNat u.imgw.toNat (image u)) k j =
      blockAt (inv2dRaw (embedSubbands s)) k j := by
    rw [hpad]
    exact blockAt_congr (fun r c hr hc => hsize.pad_stego (hh ▸ hr) (hw ▸ hc)) hk hj
  have hsame := sameCoefs_analyse hblock
  rwa [analyse_inv2dRaw] at hsame

/-- R133: the decoder finds the message in an unclipped stego image. -/
theorem decodedImage_of_pix_embedded {s u : State} (hd : DimsAccepted s) (hf : MessageFits s) (hz : NoZeroByte s)
    (hdu : DimsAccepted u) (hsize : SameOrPadded s u) (hclip : (embedded s).clipcnt = 0)
    (hpix : u.pix = (embedded s).pix) : decodedImage u = (message s, true) := by
  obtain ⟨-, -, -, -, -, hpos, -⟩ := dims_bounds hd
  have hsubw : subw u = subw s := by rw [subw, hsize.padw_eq]; rfl
  have hcap : cap u = cap s := by rw [cap, hsubw, subh, hsize.padh_eq]; rfl
  have hfit : (bitstream (message s)).length ≤ subh s * subw s := by rwa [length_bitstream_message]
  obtain ⟨τ, hbits⟩ := llBits_eq_append (w := subw s) (A := (forwardOfImage u).ll) hfit fun i b hb => by
    obtain ⟨hi, -⟩ := List.getElem?_eq_some_iff.1 hb
    have hcell : i / subw s * subw s + i % subw s = i := Nat.div_add_mod' i (subw s)
    have hrow : i / subw s < subh s := Nat.div_lt_of_lt_mul (Nat.mul_comm (subh s) (subw s) ▸ hi.trans_le hfit)
    obtain ⟨hll, -⟩ := sameCoefs_forwardOfImage_embedded hd hdu hsize hclip hpix hrow (Nat.mod_lt i hpos)
    rw [hll, embedSubbands_ll_of_bit (hcell.symm ▸ hb), lsb_setlsb]
  rw [decodedImage, hcap, hsubw, cap, hbits]
  exact bitstreamRoundTrip.1 _ τ (message_ne_zero hz)

/-- Settles O44: the EMBED ran, so the decoder finds its message in the image, and the EXTRACT delivers that. -/
theorem embedThenExtract : Obligations.EmbedThenExtract := by
  unfold Obligations.EmbedThenExtract
  intro s t u h he hclip hlen hcfg hpix hsize
  obtain ⟨hd, hf, hz, rfl⟩ := (exec_effect h).embedded_of_err_zero he
  have hdu : DimsAccepted u := SameOrPadded.dimsAccepted hsize hcfg hd
  have hdec : decodedImage u = (message s, true) := decodedImage_of_pix_embedded hd hf hz hdu hsize hclip hpix
  have hmsg : (message s).length = s.msglen.toNat := length_message s
  refine ⟨extracted u, exec_extract hdu, BitVec.eq_of_toNat_eq ?_, fun i hi => ?_, congrArg Prod.snd hdec, ?_⟩
  · rw [toNat_msglen_extracted hdu, hdec, hmsg]
  · simp only [msgAt_extracted, hdec, hmsg, dif_pos hi, getElem_message]
  · rw [extracted, deliver_err_eq_zero_iff, hdec, hmsg]
    exact ⟨rfl, hlen⟩

end Sys2Proof.Machine
end

section
/-! The exceptions (60_exceptions.md): which error a command reports, and that an aborting one leaves the data alone. -/

namespace Sys2Proof.Machine

/-! ## The completion with an aborting error (R203, R209) -/

/-- An error code that is neither 0 nor NoPayloadFound's is that of a `fail`: the other effects of a command end in a
`finish`, whose code is one of those two. -/
theorem CommandEffect.exists_fail {i : Instr} {s t : State} (h : CommandEffect i s t) (h0 : t.err ≠ 0)
    (h5 : t.err ≠ 5) : ∃ e i0 i1, t = fail e i0 i1 s := by
  cases h with
  | failed e i0 i1 => exact ⟨e, i0, i1, rfl⟩
  | unsplice => exact ((resultCode_payloadError _ _).elim h0 h5).elim
  | extract => exact ((resultCode_payloadError _ _).elim h0 h5).elim
  | _ => exact absurd rfl h0

theorem execWord_exists_fail {w : Word} {s t : State} (h : execWord w s = .next t) (h0 : t.err ≠ 0)
    (h5 : t.err ≠ 5) : ∃ e i0 i1, t = fail e i0 i1 s := by
  rcases execWord_effect h with rfl | ⟨i, -, hi⟩
  · exact ⟨_, _, _, rfl⟩
  · exact hi.exists_fail h0 h5

/-- Settles O50: the completion is a `fail`, which writes the result group and nothing else. -/
theorem abortingErrorLeavesData : Obligations.AbortingErrorLeavesData := by
  unfold Obligations.AbortingErrorLeavesData
  intro w s t h herr
  have hcode : t.err ≠ 0 ∧ t.err ≠ 5 := by rcases herr with he | he | he | he <;> rw [he] <;> decide
  obtain ⟨e, i0, i1, rfl⟩ := execWord_exists_fail h hcode.1 hcode.2
  rfl

/-! ## The four aborting errors (R202, R204 to R206) -/

/-- Settles O5. -/
theorem illegalWordFails : Obligations.IllegalWordFails := by
  unfold Obligations.IllegalWordFails
  exact fun s w hw => ⟨execWord_of_illegal hw s, fun hturn hp => step_of_pending hturn hp (execWord_of_illegal hw _)⟩

/-- R204 as the negation of R140. -/
theorem not_dimsAccepted_iff {s : State} : ¬DimsAccepted s ↔
    s.imgh.toNat = 0 ∨ s.cfg.maxh < s.imgh.toNat ∨ s.imgw.toNat = 0 ∨ s.cfg.maxw < s.imgw.toNat := by
  simp only [DimsAccepted]
  omega

/-- Settles O47. -/
theorem badDimAborts : Obligations.BadDimAborts := by
  unfold Obligations.BadDimAborts
  exact fun i s hi hbad => exec_of_badDim (not_dimsAccepted_iff.2 hbad) hi

/-- Settles O48: the capacity check comes before the message is scanned. -/
theorem capacityExceededAborts : Obligations.CapacityExceededAborts := by
  unfold Obligations.CapacityExceededAborts
  exact fun i s hi hd hcap => exec_of_payloadFailure hi (payloadFailure_of_oversized hd (Nat.not_le_of_lt hcap))

/-- Settles O49: the scan of the message finds the least index of a zero byte. -/
theorem nulInPayloadAborts : Obligations.NulInPayloadAborts := by
  unfold Obligations.NulInPayloadAborts
  intro i s p hi hd hf hp hzero hleast
  exact exec_of_payloadFailure hi (payloadFailure_of_nul hd hf (firstNul_some.2 ⟨hp, hzero, hleast⟩))

end Sys2Proof.Machine
end

section
/-! Reset, hazards and completion (70_reset_and_hazards.md): no state is stuck, the reset input, a pending command until
the engine's turn, and an EMBED that cannot clip. -/

namespace Sys2Proof.Machine

/-! ## No state is stuck (R240) -/

/-- R72: the engine's step answers a next state, with nothing pending. -/
theorem engineStep_completes (s : State) : ∃ t, engineStep s = .next t ∧ t.pend = none := by
  cases hp : s.pend with
  | none => exact ⟨s, by rw [engineStep, hp], hp⟩
  | some w =>
    obtain ⟨v, hv⟩ := execWord_next w s
    exact ⟨completePending v, engineStep_pending hp hv, completePending_pend v⟩

theorem eventStep_next (e : HostEvent) (s : State) : ∃ t, eventStep e s = .next t := by
  cases e with
  | engine =>
    obtain ⟨t, ht, -⟩ := engineStep_completes s
    exact ⟨t, ht⟩
  | _ => exact ⟨_, rfl⟩

/-- Settles O8. -/
theorem everyStepAnswersNext : Obligations.EveryStepAnswersNext := by
  unfold Obligations.EveryStepAnswersNext
  intro s
  obtain ⟨e, hstep, -⟩ := step_cases s
  rw [hstep]
  exact eventStep_next e _

/-! ## The reset input (R230, R232) -/

/-- Settles O57: the step is that of the reset event, which keeps only what is no state of the block. -/
theorem resetEventAbandonsEverything : Obligations.ResetEventAbandonsEverything := by
  unfold Obligations.ResetEventAbandonsEverything
  intro s rest hs
  obtain ⟨-, -, hreset, -⟩ := stepTakesTheNextEvent s rest
  exact hreset hs

/-! ## Runs of the machine -/

/-- The last step of a run. -/
theorem run_succ_last (M : Host.Core) {k : Nat} {x y z : M.State} (hy : M.run k x = .next y)
    (hz : M.step y = .next z) : M.run (k + 1) x = .next z := by
  induction k generalizing x with
  | zero =>
    obtain rfl : x = y := Host.Outcome.next.inj hy
    exact run_succ M 0 x z hz
  | succ k ih =>
    cases hx : M.step x with
    | next x' =>
      rw [run_succ M k x x' hx] at hy
      rw [run_succ M (k + 1) x x' hx]
      exact ih hy
    | fault r => simp [Host.Core.run, hx] at hy
    | refused r => simp [Host.Core.run, hx] at hy

/-- A run of any length answers a next state, and each of its steps uses up one event. -/
theorem run_next (n : Nat) (s : State) :
    ∃ t : State, Sys2Proof.core.run n s = .next t ∧ t.script = s.script.drop n := by
  induction n generalizing s with
  | zero => exact ⟨s, rfl, rfl⟩
  | succ n ih =>
    obtain ⟨s', hs'⟩ := everyStepAnswersNext s
    obtain ⟨-, -, -, hscript⟩ := stepTakesTheNextEvent s []
    obtain ⟨t, ht, hdrop⟩ := ih s'
    refine ⟨t, (run_succ Sys2Proof.core n s s' hs').trans ht, ?_⟩
    rw [hdrop, hscript s' hs', List.drop_tail]

/-! ## A pending command until the engine's turn (R71, R72, R232, R239) -/

/-- `t` is `s` but for ACCERR, the word last read and the script: the fields a busy block lets the host change. -/
def HostOnly (s t : State) : Prop := t = { s with accerr := t.accerr, dr := t.dr, script := t.script }

theorem HostOnly.refl (s : State) : HostOnly s s := rfl

theorem HostOnly.trans {s t u : State} (hst : HostOnly s t) (htu : HostOnly t u) : HostOnly s u := by
  rw [HostOnly] at hst htu ⊢
  rw [htu, hst]

theorem HostOnly.pend {s t : State} (h : HostOnly s t) : t.pend = s.pend := by
  rw [HostOnly] at h
  rw [h]

/-- R71: while a command is pending a host transaction changes no more than ACCERR and the word last read. -/
theorem eventStep_of_busy {e : HostEvent} {s : State} (hp : s.pend ≠ none) (hr : e ≠ .reset) (he : e ≠ .engine) :
    ∃ t, eventStep e s = .next t ∧ HostOnly s t := by
  cases e with
  | read a =>
    refine ⟨_, rfl, ?_⟩
    rcases hostRead_cases s a with h | h <;> rw [h] <;> rfl
  | write a d =>
    refine ⟨_, rfl, ?_⟩
    rw [hostWrite_of_breach d (.inr hp)]
    rfl
  | reset => exact absurd rfl hr
  | engine => exact absurd rfl he

/-- The events of the host before the engine's turn leave a pending command and all it operates on as they were. -/
theorem run_of_busy {before rest : List HostEvent} {s : State} (hs : s.script = before ++ rest) (hp : s.pend ≠ none)
    (hb : ∀ e ∈ before, e ≠ .reset ∧ e ≠ .engine) :
    ∃ u : State, Sys2Proof.core.run before.length s = .next u ∧ HostOnly s u ∧ u.script = rest := by
  induction before generalizing s with
  | nil => exact ⟨s, rfl, .refl s, hs⟩
  | cons e before ih =>
    obtain ⟨⟨hr, he⟩, hb⟩ := List.forall_mem_cons.1 hb
    obtain ⟨t, ht, hst⟩ := eventStep_of_busy (s := { s with script := s.script.tail }) hp hr he
    have hstep : step s = .next t := (step_of_head (by rw [hs]; rfl)).trans ht
    have hscript : t.script = before ++ rest := by rw [eventStep_script ht, hs]; rfl
    obtain ⟨u, hu, htu, hrest⟩ := ih hscript (by rw [hst.pend]; exact hp) hb
    have hsu : HostOnly s u := HostOnly.trans hst htu
    exact ⟨u, (run_succ Sys2Proof.core _ s t hstep).trans hu, hsu, hrest⟩

/-- After the events before the engine's first turn comes that turn, or nothing. -/
theorem engineTurn_of_dropWhile (l : List HostEvent) :
    l.dropWhile (· ≠ .engine) = [] ∨ (l.dropWhile (· ≠ .engine)).head? = some .engine := by
  induction l with
  | nil => exact .inl rfl
  | cons e l ih =>
    by_cases he : e = .engine
    · exact .inr (by simp [he])
    · simpa [he] using ih

theorem ne_engine_of_mem_takeWhile {l : List HostEvent} {e : HostEvent} (h : e ∈ l.takeWhile (· ≠ .engine)) :
    e ≠ .engine := by
  simpa using List.mem_takeWhile_imp h

/-- Once the events of the script are used up, the engine's step empties PEND. -/
theorem run_past_script (s : State) :
    ∃ t : State, Sys2Proof.core.run (s.script.length + 1) s = .next t ∧ t.pend = none ∧ t.script = [] := by
  obtain ⟨u, hu, huscript⟩ := run_next s.script.length s
  rw [List.drop_length] at huscript
  obtain ⟨t, ht, hpend⟩ := engineStep_completes { u with script := u.script.tail }
  have hstep : step u = .next t := (step_of_engineTurn (.inl huscript)).trans ht
  refine ⟨t, run_succ_last Sys2Proof.core hu hstep, hpend, ?_⟩
  rw [eventStep_script (e := .engine) ht, huscript]
  rfl

/-- Settles O9: past the script the engine has its turn; and up to its first turn a pending word waits undisturbed. -/
theorem pendingCommandCompletes : Obligations.PendingCommandCompletes := by
  unfold Obligations.PendingCommandCompletes
  refine fun s => ⟨run_past_script s, fun w before hbefore hp hreset => ?_⟩
  have hsplit : s.script = before ++ s.script.dropWhile (· ≠ .engine) := by
    rw [hbefore, List.takeWhile_append_dropWhile]
  have hhost : ∀ e ∈ before, e ≠ .reset ∧ e ≠ .engine := fun e he =>
    ⟨fun h => hreset (h ▸ he), ne_engine_of_mem_takeWhile (hbefore ▸ he)⟩
  obtain ⟨u, hu, hsu, hscript⟩ := run_of_busy hsplit (by rw [hp]; nofun) hhost
  obtain ⟨v, hv⟩ := execWord_next w { u with script := u.script.tail }
  have hturn : u.script = [] ∨ u.script.head? = some .engine := hscript ▸ engineTurn_of_dropWhile s.script
  have hdrop : s.script.drop before.length = u.script := by
    rw [hscript]
    exact (congrArg (List.drop before.length) hsplit).trans List.drop_left
  refine ⟨u, v, hu, by rw [hdrop]; exact hsu, hv, ?_⟩
  exact run_succ_last Sys2Proof.core hu (step_of_pending hturn (hsu.pend.trans hp) hv)

/-! ## An EMBED that cannot clip (R128, R237) -/

/-- R237: the image has no pixel 0 or 255. -/
def NoExtremePixel (s : State) : Prop :=
  ∀ r c, r < s.imgh.toNat → c < s.imgw.toNat → pixAt s r c ≠ 0 ∧ pixAt s r c ≠ 255

theorem NoExtremePixel.image_range {s : State} (h : NoExtremePixel s) {r c : Nat} (hr : r < s.imgh.toNat)
    (hc : c < s.imgw.toNat) : 1 ≤ image s r c ∧ image s r c ≤ 254 := by
  obtain ⟨h0, h255⟩ := h r c hr hc
  rw [image]
  bv_omega

/-- R128: each block moves by at most one, so no cell of the raw stego image leaves the range of a pixel. -/
theorem NoExtremePixel.stego_inRange {s : State} (h : NoExtremePixel s) (hd : DimsAccepted s) (r c : Nat) :
    outOfRange (inv2dRaw (embedSubbands s) r c) = false := by
  obtain ⟨hh, -, hw, -⟩ := hd
  have hcell : 1 ≤ pad s.imgh.toNat s.imgw.toNat (image s) r c ∧
      pad s.imgh.toNat s.imgw.toNat (image s) r c ≤ 254 :=
    pad_cell hh hw (p := fun v => 1 ≤ v ∧ v ≤ 254) (fun _ _ => h.image_range) r c
  have hshift := embedShift_unit s (r / 2) (c / 2)
  rw [inRange_iff, inv2dRaw_embedSubbands]
  omega

/-- Settles O46: an EMBED that fails reports no clipped pixel, and one that runs clips none. -/
theorem embedWithoutExtremePixelsNeverClips : Obligations.EmbedWithoutExtremePixelsNeverClips := by
  unfold Obligations.EmbedWithoutExtremePixelsNeverClips
  intro s t hpix h
  cases exec_effect h with
  | failed => rfl
  | embed hd hf hz =>
    have hpix : NoExtremePixel s := hpix
    refine BitVec.eq_of_toNat_eq ((toNat_clipcnt_embedded hd).trans ?_)
    exact countClipped_eq_zero.2 fun r c _ _ => hpix.stego_inRange hd r c

end Sys2Proof.Machine
end
